-- ==== Sys2Proof/Word.lean ====
section
/-! DEFINITION. The unsigned values of the engine (00_scope.md R10, R11): bytes, 32-bit words, 64-bit
counters, and the fixed-size arrays made of them. There are no signed values anywhere. -/

namespace Sys2Proof

/-- `u8` of R11: one byte of message, buffer, response or digest. -/
abbrev Byte := BitVec 8

/-- `u32` of R11 (WORD of R10): a state, schedule, constant or working word. -/
abbrev Word := BitVec 32

/-- `u64` of R11 (CNTW of R10): the byte counter and the bit length. -/
abbrev Word64 := BitVec 64

/-- A block: 64 bytes, byte 0 first (R54; BLOCK of R10). -/
abbrev Block := Vector Byte 64

/-- The eight words of hash state (R17; NSTATE of R10). -/
abbrev HashState := Vector Word 8

/-- The 64 words of a message schedule (R24; NSCHED of R10). -/
abbrev Schedule := Vector Word 64

/-- The 32 bytes of a digest (R23, R60; DIGEST of R10). -/
abbrev Digest := Vector Byte 32

end Sys2Proof
end

