-- ==== Sys2Proof/Machine/Operands.lean ====
section
/-! DEFINITION. The word operators of 00_scope.md R12 and the four values the engine assembles from others
(30_encoding.md R57): a schedule word from four bytes, the bit length from the counter, the length field,
the digest. `add32` and `add64` of R12 are `+` on `Word` and `Word64`: the sum mod 2^32, mod 2^64; `xor` and
`and` are `^^^` and `&&&`. -/

namespace Sys2Proof.Machine

/-- Rotation right by `n` within 32 bits (R12). -/
def rotr32 (x : Word) (n : Nat) : Word := x.rotateRight n

/-- Logical right shift: zeros enter at bit 31 (R12). -/
def shr32 (x : Word) (n : Nat) : Word := x >>> n

/-- All 32 bits inverted (R12). -/
def not32 (x : Word) : Word := ~~~x

/-- Left shift of a 64-bit value: `(x * 2^n) mod 2^64` (R12). -/
def shl64 (x : Word64) (n : Nat) : Word64 := x <<< n

/-- Four bytes as a word, first byte most significant (R13, R33). -/
def be32 (b0 b1 b2 b3 : Byte) : Word := b0 ++ b1 ++ b2 ++ b3

/-- A word as four bytes, most significant first (R13). -/
def bytesBe32 (w : Word) : Vector Byte 4 :=
  #v[w.extractLsb' 24 8, w.extractLsb' 16 8, w.extractLsb' 8 8, w.extractLsb' 0 8]

/-- A 64-bit value as eight bytes, most significant first (R13): the length field of R56. -/
def bytesBe64 (v : Word64) : Vector Byte 8 :=
  #v[v.extractLsb' 56 8, v.extractLsb' 48 8, v.extractLsb' 40 8, v.extractLsb' 32 8,
     v.extractLsb' 24 8, v.extractLsb' 16 8, v.extractLsb' 8 8, v.extractLsb' 0 8]

/-- `n` bytes of 0x00 (R13). -/
def zeros (n : Nat) : List Byte := List.replicate n 0

/-- L, the bit length: the byte counter times 8, mod 2^64 (R57.2, R69). -/
def bitLength (cnt : Word64) : Word64 := shl64 cnt 3

/-- SER of a hash state: the eight words serialised big-endian in order (R60, R71). -/
def serialise (hs : HashState) : Digest :=
  bytesBe32 hs[0] ++ bytesBe32 hs[1] ++ bytesBe32 hs[2] ++ bytesBe32 hs[3] ++
    bytesBe32 hs[4] ++ bytesBe32 hs[5] ++ bytesBe32 hs[6] ++ bytesBe32 hs[7]

end Sys2Proof.Machine
end

