-- ==== Sys2Proof/Config.lean ====
section
/-! DEFINITION. What is fixed for the engine and what the spec leaves open (00_scope.md R10). The sizes
are fixed, not configurable; the two open parameters of R10, `Latency` and `RegMap`, enter no rule and
are left out (notes/assumptions/15). The free values below have no body: nothing can be proved about
which value they are (R24 to R26, 93_implementation_defined.md U4; notes/assumptions/5). The constant
tables IV and K stand in Machine/Constants.lean. -/

namespace Sys2Proof

/-- BLOCK of R10: bytes per block. -/
abbrev Config.blockBytes : Nat := 64

/-- NROUND of R10: rounds per compression. -/
abbrev Config.rounds : Nat := 64

/-- PADMARK of R10: the first padding byte. -/
abbrev Config.padMark : Byte := 0x80

/-- PADLIMIT of R10: the largest length of residual plus marker that still fits one block. -/
abbrev Config.padLimit : Nat := 56

/-- FREE VALUE: what word `slot` of the compression's working storage holds after the compression
numbered `draw`. The spec calls that content unspecified (R24, R25). -/
opaque Config.freeWord (draw slot : Nat) : Word

/-- FREE VALUE: what the round index j holds after the compression numbered `draw` (R26); it keeps the
bound R16 gives it, 0 to 64. -/
opaque Config.freeIndex (draw : Nat) : Fin 65

end Sys2Proof
end

