-- ==== Sys2Proof/Syntax.lean ====
section
/-! DEFINITION. The command set "mysha2-cmd v1" (30_encoding.md R50), the raw transactions it is read
from (R49, R51, R52), the responses (R53) and the events a host can bring to the engine's port. -/

namespace Sys2Proof

/-- The four host commands, one constructor per row of spec/opcode_table.json; this is the type `Cmd`
of R50. Every value is legal: the payload may have any length from 0 up and hold any bytes (R52). -/
inductive Instr where
  /-- INIT, op = 00: the source's `new()` (R66). -/
  | init
  /-- UPDATE, op = 01, with its payload: the source's `update(bytes)` (R68). -/
  | update (data : List Byte)
  /-- FINAL, op = 10: the source's `finalize()` (R69). -/
  | final
  /-- HASH, op = 11, with its payload: the source's `hash(message)` (R72). -/
  | hash (data : List Byte)
deriving DecidableEq, Repr

/-- What the host presents in one transaction (R49): the 2-bit command word, which has the single field
`op` (R51), and the data beats offered with it, one byte per beat, first beat first (R52). -/
structure Transaction where
  op : BitVec 2
  payload : List Byte
deriving DecidableEq, Repr

/-- The cause codes the engine can send (R103). There is one; U9 of 93_implementation_defined.md has a
model's type lack the codes that are never sent. -/
inductive Cause where
  /-- MISUSE_AFTER_FINAL: UPDATE or FINAL arrived while PHASE = DONE. -/
  | misuseAfterFinal
deriving DecidableEq, Repr

/-- The responses, the type `Rsp` of R53. -/
inductive Rsp where
  /-- The command was performed; it returns no value. -/
  | ack
  /-- The command was performed; here is the digest. -/
  | digest (d : Digest)
  /-- The command was refused; no state changed but ERR. -/
  | error (cause : Cause)
deriving DecidableEq, Repr

/-- A response as it stands on the response port (R53): the 2-bit status and the payload bytes. -/
structure WireRsp where
  st : BitVec 2
  payload : List Byte
deriving DecidableEq, Repr

/-- What can happen at the engine's port: the host's commands, one at a time (R49, R123), and the reset
that the platform may assert between two commands or while one is running (R117). -/
inductive HostEvent where
  /-- The host presents a transaction. -/
  | command (t : Transaction)
  /-- Reset, between two commands; it is not a command and has no encoding (R63, R117). -/
  | reset
  /-- Reset arrives while the command `t` is running and abandons it (R117). -/
  | resetDuring (t : Transaction)
deriving DecidableEq, Repr

end Sys2Proof
end

