-- ==== Sys2Proof/WellFormed.lean ====
section
/-! DEFINITION. The one check a transaction must pass: INIT and FINAL take no payload (30_encoding.md
R50, R52). Every 2-bit opcode is assigned and every payload byte is legal (R61), so nothing else can be
ill-formed, and every term of `Instr` is well-formed by its type. -/

namespace Sys2Proof

/-- The command words that take no payload: 00 (INIT) and 10 (FINAL), the rows of R50 marked "none". -/
def takesNoPayload (op : BitVec 2) : Bool :=
  op == 0b00#2 || op == 0b10#2

/-- A transaction offers data beats only to a command that has a payload (R49, R50, R52). -/
def Transaction.wellFormed (t : Transaction) : Bool :=
  !takesNoPayload t.op || t.payload.isEmpty

end Sys2Proof
end

