-- ==== Sys2Proof/Decode.lean ====
section
/-! DEFINITION. The decoder and encoder of commands (30_encoding.md R50, R58) and of responses (R53). -/

namespace Sys2Proof

/-- Why a transaction is no command: it offers data beats to a command that takes none (R50, R52). The
opcode itself is never a reason, all four values are assigned (R61). See notes/assumptions/9. -/
inductive DecodeError where
  /-- op = 00 (INIT) with a payload. -/
  | payloadOnInit
  /-- op = 10 (FINAL) with a payload. -/
  | payloadOnFinal
deriving DecidableEq, Repr

/-- The decoder of R58: read op; 00 gives INIT; 01 gives UPDATE and takes the payload; 10 gives FINAL; 11
gives HASH and takes the payload. -/
def decode (t : Transaction) : Except DecodeError Instr :=
  match t.op.toFin with
  | 0 => if t.payload.isEmpty then .ok .init else .error .payloadOnInit
  | 1 => .ok (.update t.payload)
  | 2 => if t.payload.isEmpty then .ok .final else .error .payloadOnFinal
  | 3 => .ok (.hash t.payload)

/-- The encoder: the command word and payload of each command, from the table of R50. -/
def encode : Instr → Transaction
  | .init => ⟨0b00#2, []⟩
  | .update data => ⟨0b01#2, data⟩
  | .final => ⟨0b10#2, []⟩
  | .hash data => ⟨0b11#2, data⟩

/-- The transaction that an instruction word stands for: `op` is its bits 1 down to 0, the other bits of a
wider word are the platform's and the engine does not see them (R51), and no data beat comes with it
(the payload has no bits in the command word, R62). See notes/assumptions/17. -/
def transactionOfWord (nbits w : Nat) : Transaction :=
  ⟨BitVec.ofNat 2 (w % 2 ^ nbits), []⟩

/-- The instruction the decoder reads from a word numbered as spec/opcode_table.json numbers it. -/
def decodeTableWord (nbits w : Nat) : Option Instr :=
  (decode (transactionOfWord nbits w)).toOption

/-- The code byte of a cause (R103). -/
def Cause.code : Cause → Byte
  | .misuseAfterFinal => 0x01

/-- The response encoding of R53. -/
def encodeRsp : Rsp → WireRsp
  | .ack => ⟨0b00#2, []⟩
  | .digest d => ⟨0b01#2, d.toList⟩
  | .error c => ⟨0b10#2, [c.code]⟩

/-- Why a status and payload are no response of this engine (R53, R61, R103). -/
inductive RspError where
  /-- Status 11, which is never produced. -/
  | neverProduced
  /-- A payload whose length is not the one R53 gives the status. -/
  | wrongLength
  /-- A cause byte other than 0x01, which is never sent (R103). -/
  | unassignedCause
deriving DecidableEq, Repr

/-- How a host reads a response (R53). -/
def decodeRsp (r : WireRsp) : Except RspError Rsp :=
  match r.st.toFin with
  | 0 => if r.payload.isEmpty then .ok .ack else .error .wrongLength
  | 1 =>
    if h : r.payload.length = 32 then .ok (.digest ⟨r.payload.toArray, by simpa using h⟩)
    else .error .wrongLength
  | 2 =>
    match r.payload with
    | [b] => if b = Cause.misuseAfterFinal.code then .ok (.error .misuseAfterFinal) else .error .unassignedCause
    | _ => .error .wrongLength
  | 3 => .error .neverProduced

end Sys2Proof
end

