-- ==== Sys2Proof/Machine/State.lean ====
section
/-! DEFINITION. Everything 10_state.md R16 gives the engine, as plain data, with the host's side of the port
beside it. IV and K are no state (R28, R30); DIGEST and digest_valid are views, not storage (R23), and
stand in Machine/Flags.lean. -/

namespace Sys2Proof.Machine

/-- The lifecycle flag PHASE (R21): one bit, ACTIVE = 0, DONE = 1. -/
inductive Phase where
  | active
  | done
deriving DecidableEq, Repr

/-- The working variables a to h of one compression (R25). -/
structure Vars where
  a : Word
  b : Word
  c : Word
  d : Word
  e : Word
  f : Word
  g : Word
  h : Word
deriving DecidableEq, Repr

/-- The storage that lives inside one compression (R24 to R26): the schedule W, the working variables, the
round temporaries T1 and T2, and the round index j (7 bits, 0 to 64). Between commands its content is
unspecified. -/
structure Scratch where
  w : Schedule
  vars : Vars
  t1 : Word
  t2 : Word
  j : Fin 65
deriving DecidableEq, Repr

/-- The machine. -/
structure State where
  /-- H[0..7], the hash state (R17). -/
  hash : HashState
  /-- BUF[0..63], the pending buffer (R18): all the memory there is (R14). -/
  buf : Block
  /-- FILL, the fill cursor of BUF: a 7-bit register that holds 0 to 64 (R19). -/
  fill : Fin 65
  /-- CNT, the byte counter (R20). -/
  cnt : Word64
  /-- PHASE (R21). -/
  phase : Phase
  /-- ERR, the sticky misuse flag (R22). -/
  err : Bool
  /-- W, a to h, T1, T2, j (R24 to R26). -/
  scratch : Scratch
  /-- The host's side of the port, the model's own field: what the host and the platform will bring to the
  engine, next first (R49, R128). The engine takes one event per step. -/
  events : List HostEvent
  /-- The response port, the model's own field: every response given so far, oldest first; R128 names this
  list as the observation of a run. -/
  responses : List Rsp
  /-- The model's own field: how many compressions have run; it numbers the free values that `scratch`
  holds after each of them (notes/assumptions/5). -/
  draws : Nat
deriving DecidableEq, Repr

/-- What stops the machine with a fault. -/
inductive Fault where
  /-- Misuse (R103 to R105). `exec` and `step` never raise it: they take the refusal, as a next state with
  ERR set and an ERROR response. `Sys2Proof.Safety.execStrict` raises it, in the reading in which R105 has
  a model's step return "fault Misuse". Safe: it stops where the engine goes on. -/
  | misuse
deriving DecidableEq, Repr

/-- Why the machine gives no meaning. -/
inductive Refusal where
  /-- An instruction the model gives no meaning to, by its mnemonic. Raised by no arm of `exec`. Safe. -/
  | notModelled (mnemonic : String)
  /-- The transaction at the port is no command of the spec: it offers a payload to INIT or FINAL (R50, R52).
  Raised by `step`. Safe: it stops where the spec says nothing. -/
  | illFormed (e : DecodeError)
deriving DecidableEq, Repr

/-- The working storage at reset. R32 leaves it unspecified: DESIGN CHOICE zero (notes/assumptions/4). -/
def Scratch.reset : Scratch where
  w := Vector.replicate 64 0
  vars := ⟨0, 0, 0, 0, 0, 0, 0, 0⟩
  t1 := 0
  t2 := 0
  j := 0

/-- The machine right after reset (R32): H = IV, FILL = 0, CNT = 0, PHASE = ACTIVE, ERR = 0. BUF and the
working storage are unspecified there: DESIGN CHOICE zero (notes/assumptions/3, 4). Nothing has been
presented, answered or drawn (notes/assumptions/5, 6, 7). -/
def State.reset : State where
  hash := IV
  buf := Vector.replicate 64 0
  fill := 0
  cnt := 0
  phase := .active
  err := false
  scratch := Scratch.reset
  events := []
  responses := []
  draws := 0

end Sys2Proof.Machine
end

