-- ==== Sys2Proof/Machine/Flags.lean ====
section
/-! DEFINITION. The flags, PHASE and ERR, and the read-only views a host has of the engine between commands
(10_state.md R21 to R23, R30). There are no condition codes and no carry. Reading a view has no side
effect (R38): a view is a function of the state. -/

namespace Sys2Proof.Machine

/-- PHASE as its bit (R21). -/
def Phase.bit : Phase → BitVec 1
  | .active => 0
  | .done => 1

/-- digest_valid: 1 exactly when PHASE = DONE (R23). -/
def digestValid (s : State) : Bool := s.phase == .done

/-- The DIGEST view (R23): the serialised hash state while digest_valid = 1. While it is 0 the bytes are
unspecified and the view gives no value (U5; notes/assumptions/13). -/
def digestView (s : State) : Option Digest :=
  if digestValid s then some (serialise s.hash) else none

/-- The ERR flag as the host sees it (R22). -/
def errView (s : State) : Bool := s.err

end Sys2Proof.Machine
end

