-- ==== Sys2Proof/Machine/Ops.lean ====
section
/-! DEFINITION. The shared operations: reading and writing the pending buffer (00_scope.md R14), answering the
host (R53), taking the one exception (60_exceptions.md R105), reset (70_reset_and_hazards.md R117) and
taking the next event from the port. There is no return from the exception: nothing was saved and there is
no handler (R109); INIT, HASH and reset are what clears ERR. -/

namespace Sys2Proof.Machine

/-- `MemRead(4t, 4)`: the four bytes at 4t, first byte most significant (R14, R54). -/
def memReadWord (buf : Block) (t : Fin 16) : Word :=
  be32 buf[4 * t.val] buf[4 * t.val + 1] buf[4 * t.val + 2] buf[4 * t.val + 3]

/-- `MemWrite(addr, n, v)` with the n bytes of v given most significant first: n byte writes in index order
(R14, R35). No rule writes past index 63; a byte that would fall there is not written
(notes/assumptions/10). -/
def memWrite (buf : Block) (addr : Nat) : List Byte → Block
  | [] => buf
  | b :: bs => memWrite (if h : addr < 64 then buf.set addr b h else buf) (addr + 1) bs

/-- FILL + 1, a plain integer that never passes 64 (R19, R99). -/
def nextFill (fill : Fin 65) : Fin 65 :=
  if h : fill.val < 64 then ⟨fill.val + 1, by omega⟩ else fill

/-- `MemWrite(FILL, 1, b); FILL <- FILL + 1`: how ABSORB and the padding write BUF (R67, R69). -/
def putByte (b : Byte) (s : State) : State :=
  { s with buf := memWrite s.buf s.fill.val [b], fill := nextFill s.fill }

/-- `n` zero bytes through `putByte`. -/
def putZeros : Nat → State → State
  | 0, s => s
  | n + 1, s => putZeros n (putByte 0x00 s)

/-- `while FILL < limit: MemWrite(FILL, 1, 0x00); FILL <- FILL + 1` (R69): the loop runs `limit - FILL` times,
since each round raises FILL by one. -/
def zeroFillTo (limit : Nat) (s : State) : State :=
  putZeros (limit - s.fill.val) s

/-- The residual: BUF[0] to BUF[FILL-1], the only bytes of BUF that hold meaning (R18). -/
def residualBytes (s : State) : List Byte := s.buf.toList.take s.fill.val

/-- "Buffer reset" (R18): FILL <- 0; the 64 bytes are not cleared. -/
def emptyBuffer (s : State) : State := { s with fill := 0 }

/-- `respond r` (R14, R53): the command's one response is given. -/
def respond (r : Rsp) (s : State) : State :=
  { s with responses := s.responses ++ [r] }

/-- TAKING THE EXCEPTION: `raise Misuse` (R105). ERR <- 1, nothing else of the engine changes, the payload of a
refused UPDATE is thrown away, and the answer is ERROR(0x01). The machine goes on: a next state
(notes/assumptions/2). -/
def raiseMisuse (s : State) : Host.Outcome State Fault Refusal :=
  .next (respond (.error .misuseAfterFinal) { s with err := true })

/-- RESET (R32, R117): the engine's registers go to their reset values whatever they held. What the host has
still to bring, what it was answered, and the numbering of free values are no part of the engine and stay
(notes/assumptions/8). -/
def resetEngine (s : State) : State :=
  { State.reset with events := s.events, responses := s.responses, draws := s.draws }

/-- The next event at the port, with the state after it has been taken (R49). -/
def takeEvent (s : State) : Option (HostEvent × State) :=
  match s.events with
  | [] => none
  | e :: rest => some (e, { s with events := rest })

/-- The host presents `e` before anything it has yet to bring. -/
def present (e : HostEvent) (s : State) : State :=
  { s with events := e :: s.events }

end Sys2Proof.Machine
end

