-- ==== Sys2Proof/Machine/Scheduler.lean ====
section
/-! DEFINITION. The message-schedule expander (41_message_scheduler.md). -/

namespace Sys2Proof.Machine

/-- σ0 (R80). -/
def sigma0 (x : Word) : Word := rotr32 x 7 ^^^ rotr32 x 18 ^^^ shr32 x 3

/-- σ1 (R81). -/
def sigma1 (x : Word) : Word := rotr32 x 17 ^^^ rotr32 x 19 ^^^ shr32 x 10

/-- Block load (R79): W[t] <- MemRead(4t, 4) for t = 0 to 15. -/
def loadBlock (buf : Block) (w : Schedule) : Schedule :=
  Nat.fold 16 (fun t ht w => w.set t (memReadWord buf ⟨t, ht⟩)) w

/-- Schedule recurrence (R82), j = i + 16 for i = 0 to 47, ascending:
W[j] <- sigma1(W[j-2]) + sigma0(W[j-15]) + W[j-7] + W[j-16]. -/
def expandSchedule (w : Schedule) : Schedule :=
  Nat.fold 48 (fun i _ w => w.set (i + 16) (sigma1 w[i + 14] + sigma0 w[i + 1] + w[i + 9] + w[i])) w

/-- `Sched(B)` as a function of the block alone (R83). -/
def sched (block : Block) : Schedule :=
  expandSchedule (loadBlock block (Vector.replicate 64 0))

/-- `SCHED()` on the engine's own storage (R83): W is written over whatever it held. -/
def Scratch.sched (buf : Block) (x : Scratch) : Scratch :=
  { x with w := expandSchedule (loadBlock buf x.w) }

end Sys2Proof.Machine
end

