-- ==== Sys2Proof/Machine/Compression.lean ====
section
/-! DEFINITION. The compression engine (43_compression_function.md): the round functions, the function
`Compress(S, B)`, and COMPRESS() on the engine's own storage. -/

namespace Sys2Proof.Machine

/-- Ch, "choose" (R91). -/
def Ch (e f g : Word) : Word := (e &&& f) ^^^ (not32 e &&& g)

/-- Maj, "majority" (R92). -/
def Maj (a b c : Word) : Word := (a &&& b) ^^^ (a &&& c) ^^^ (b &&& c)

/-- Σ0 (R93). -/
def Sigma0 (a : Word) : Word := rotr32 a 2 ^^^ rotr32 a 13 ^^^ rotr32 a 22

/-- Σ1 (R94). -/
def Sigma1 (e : Word) : Word := rotr32 e 6 ^^^ rotr32 e 11 ^^^ rotr32 e 25

/-- T1 of a round, from the values before it (R97). -/
def roundT1 (k w : Word) (v : Vars) : Word := v.h + Sigma1 v.e + Ch v.e v.f v.g + k + w

/-- T2 of a round, from the values before it (R97). -/
def roundT2 (v : Vars) : Word := Sigma0 v.a + Maj v.a v.b v.c

/-- The eight simultaneous assignments that end a round (R97). -/
def shuffle (t1 t2 : Word) (v : Vars) : Vars :=
  { h := v.g, g := v.f, f := v.e, e := v.d + t1, d := v.c, c := v.b, b := v.a, a := t1 + t2 }

/-- One round as a function of the variables, K[j] and W[j] (R97). -/
def roundVars (k w : Word) (v : Vars) : Vars := shuffle (roundT1 k w v) (roundT2 v) v

/-- Load (R96): a pairs with H[0], ..., h with H[7]. -/
def loadVars (hs : HashState) : Vars := ⟨hs[0], hs[1], hs[2], hs[3], hs[4], hs[5], hs[6], hs[7]⟩

/-- Add (R98): the eight sums, mod 2^32. -/
def addVars (hs : HashState) (v : Vars) : HashState :=
  #v[hs[0] + v.a, hs[1] + v.b, hs[2] + v.c, hs[3] + v.d,
     hs[4] + v.e, hs[5] + v.f, hs[6] + v.g, hs[7] + v.h]

/-- The 64 rounds as a plain fold over j = 0 to 63 (R95, R102). -/
def runRounds (w : Schedule) (v : Vars) : Vars :=
  Nat.fold 64 (fun j _ v => roundVars K[j] w[j] v) v

/-- `Compress(S, B)`, the pure function of a state and a block (R95, R101). -/
def compress (hs : HashState) (block : Block) : HashState :=
  addVars hs (runRounds (sched block) (loadVars hs))

/-- Load on the engine's own storage (R96); j starts at 0 (R26). -/
def Scratch.load (hs : HashState) (x : Scratch) : Scratch :=
  { x with vars := loadVars hs, j := 0 }

/-- ROUND(j) on the engine's own storage (R97): j selects K[j] and W[j] and moves on (R26). There is no round
64. -/
def Scratch.round (x : Scratch) : Scratch :=
  if hj : x.j.val < 64 then
    let t1 := roundT1 K[x.j.val] x.w[x.j.val] x.vars
    let t2 := roundT2 x.vars
    { x with t1 := t1, t2 := t2, vars := shuffle t1 t2 x.vars, j := ⟨x.j.val + 1, by omega⟩ }
  else x

/-- `n` rounds, one after another. -/
def Scratch.runRounds : Nat → Scratch → Scratch
  | 0, x => x
  | n + 1, x => Scratch.runRounds n x.round

/-- What the working storage holds once a compression is over: unspecified (R24 to R26), so free values,
drawn anew for each compression (notes/assumptions/5). -/
def Scratch.free (draw : Nat) : Scratch where
  w := Vector.ofFn fun i => Config.freeWord draw i.val
  vars := ⟨Config.freeWord draw 64, Config.freeWord draw 65, Config.freeWord draw 66, Config.freeWord draw 67,
           Config.freeWord draw 68, Config.freeWord draw 69, Config.freeWord draw 70, Config.freeWord draw 71⟩
  t1 := Config.freeWord draw 72
  t2 := Config.freeWord draw 73
  j := Config.freeIndex draw

/-- `COMPRESS()` (R95): SCHED, load, 64 rounds, add. Reads H, BUF and K, writes H and the working storage. -/
def compressBuffer (s : State) : State :=
  let x := Scratch.runRounds Config.rounds ((s.scratch.sched s.buf).load s.hash)
  { s with hash := addVars s.hash x.vars, scratch := Scratch.free s.draws, draws := s.draws + 1 }

end Sys2Proof.Machine
end

