-- ==== Sys2Proof/Machine/Padding.lean ====
section
/-! DEFINITION. The padding encoder (42_padding_encoder.md): PAD as a function, and the steps in which FINAL
writes the same bytes into BUF in place (40_streaming_hasher.md R69; 42 R90). -/

namespace Sys2Proof.Machine

/-- PAD (R86): the one or two final blocks, as byte sequences, from the residual and the bit length. -/
def pad (res : List Byte) (len : Word64) : List (List Byte) :=
  let t := res ++ [Config.padMark]
  if t.length ≤ Config.padLimit then
    [t ++ zeros (Config.padLimit - t.length) ++ (bytesBe64 len).toList]
  else
    [t ++ zeros (Config.blockBytes - t.length), zeros Config.padLimit ++ (bytesBe64 len).toList]

/-- The block that 64 bytes are (R54). A missing byte would read 0; no block of the model has one. -/
def blockOf (bytes : List Byte) : Block :=
  Vector.ofFn fun i => bytes.getD i.val 0

/-- COMPRESS on a full buffer, then the buffer reset: `COMPRESS(); FILL <- 0` (R67, R69). -/
def foldBlock (s : State) : State := emptyBuffer (compressBuffer s)

/-- The spill of R69: when no room is left for the length, zeros to the end of the block, and the marker block
is compressed at once. -/
def spillIfNoRoom (s : State) : State :=
  if s.fill.val > Config.padLimit then foldBlock (zeroFillTo Config.blockBytes s) else s

/-- `MemWrite(56, 8, L); FILL <- 64` (R69): the length field at offsets 56 to 63 (R56, R87). -/
def putLength (len : Word64) (s : State) : State :=
  { s with buf := memWrite s.buf Config.padLimit (bytesBe64 len).toList, fill := 64 }

/-- The padding of R69 whole: L is taken before any padding byte is written; marker; spill; zeros; length; the
last block is compressed. -/
def padAndCompress (s : State) : State :=
  let len := bitLength s.cnt
  foldBlock (putLength len (zeroFillTo Config.padLimit (spillIfNoRoom (putByte Config.padMark s))))

end Sys2Proof.Machine
end

