-- ==== Sys2Proof/Machine/Hasher.lean ====
section
/-! DEFINITION. The state controller (40_streaming_hasher.md): the internal operations ABSORB and SER, and the
meanings of the four commands. -/

namespace Sys2Proof.Machine

/-- ABSORB(b) (R67): take one message byte; a full buffer is compressed at once. -/
def absorb (b : Byte) (s : State) : State :=
  let s1 := putByte b s
  let s2 := { s1 with cnt := s1.cnt + 1 }
  if s2.fill.val = Config.blockBytes then foldBlock s2 else s2

/-- The body of UPDATE: ABSORB over the payload, in order (R68). -/
def absorbAll (data : List Byte) (s : State) : State :=
  data.foldl (fun s b => absorb b s) s

/-- The body of INIT (R66): a fresh context. BUF is not cleared. -/
def initContext (s : State) : State :=
  { s with hash := IV, cnt := 0, fill := 0, phase := .active, err := false }

/-- The body of FINAL (R69): padding, the last compressions, PHASE <- DONE, and the digest as the response. -/
def finish (s : State) : State :=
  let t := padAndCompress s
  respond (.digest (serialise t.hash)) { t with phase := .done }

/-- INIT (R66). -/
def execInit (s : State) : Host.Outcome State Fault Refusal :=
  .next (respond .ack (initContext s))

/-- UPDATE (R68): refused in PHASE = DONE, whatever the payload (R104, R107). -/
def execUpdate (data : List Byte) (s : State) : Host.Outcome State Fault Refusal :=
  match s.phase with
  | .done => raiseMisuse s
  | .active => .next (respond .ack (absorbAll data s))

/-- FINAL (R69): refused in PHASE = DONE (R104). -/
def execFinal (s : State) : Host.Outcome State Fault Refusal :=
  match s.phase with
  | .done => raiseMisuse s
  | .active => .next (finish s)

/-- HASH (R72): INIT, UPDATE and FINAL in one transaction, with FINAL's response. -/
def execHash (data : List Byte) (s : State) : Host.Outcome State Fault Refusal :=
  .next (finish (absorbAll data (initContext s)))

end Sys2Proof.Machine
end

