-- ==== Sys2Proof/Machine/Step.lean ====
section
/-! DEFINITION. One step of the machine: one whole event at the port, from its acceptance to its response
(00_scope.md R9; 20_memory.md R38). -/

namespace Sys2Proof.Machine

/-- A step takes the next event. A command is decoded and executed; a reset puts the engine in its reset state,
and a command that it cuts short leaves nothing, not even a response (R117). With nothing at the port the
engine waits for the host and stays as it is (R117; notes/assumptions/6). -/
def step (s : State) : Host.Outcome State Fault Refusal :=
  match takeEvent s with
  | none => .next s
  | some (.command t, s') =>
    match decode t with
    | .ok i => exec i s'
    | .error e => .refused (.illFormed e)
  | some (.reset, s') => .next (resetEngine s')
  | some (.resetDuring _, s') => .next (resetEngine s')

/-- `s` with the instruction of word `w` presented at the port, before anything the host has yet to bring: the
very next step runs it. A program is a list of commands brought by the host from outside the machine
(notes/assumptions/6). -/
def State.withFetchWord (s : State) (nbits w : Nat) : State :=
  present (.command (transactionOfWord nbits w)) s

end Sys2Proof.Machine
end

