-- ==== Sys2Proof/Machine/Instances.lean ====
section
/-! DEFINITION. Several engines at once (60_exceptions.md R115; 20_memory.md R48): `n` independent copies of the
one-engine machine, each with its own state and its own host; IV and K are the only things shared. Which
engine moves next is an input (notes/assumptions/18). -/

namespace Sys2Proof.Machine

/-- The states of `n` engines. They have no identifiers but their place here. -/
abbrev Engines (n : Nat) := Vector State n

/-- Engine `i` takes one step; the others are as they were. -/
def stepAt {n : Nat} (i : Fin n) (es : Engines n) : Host.Outcome (Engines n) Fault Refusal :=
  match step es[i] with
  | .next t => .next (es.set i t)
  | .fault f => .fault f
  | .refused r => .refused r

end Sys2Proof.Machine
end

