-- ==== Sys2Proof/Machine/Script.lean ====
section
/-! DEFINITION. The textual syntax of command scripts and its pseudo-commands (30_encoding.md R63, R64): from the
characters of a script to the events a host brings. The conventions R63 leaves open are in
notes/assumptions/16. -/

namespace Sys2Proof.Machine.Script

/-- One part of a payload (R63). -/
inductive Part where
  /-- A run of hexadecimal digit pairs. -/
  | hex (bytes : List Byte)
  /-- An ASCII string in double quotes, one byte per character. -/
  | text (bytes : List Byte)
  /-- `<byte> x <count>`. -/
  | repeated (b : Byte) (count : Nat)
deriving DecidableEq, Repr

/-- The bytes of a part. -/
def Part.bytes : Part → List Byte
  | .hex bs => bs
  | .text bs => bs
  | .repeated b n => List.replicate n b

/-- Several parts are concatenated (R63). -/
def payload (ps : List Part) : List Byte := ps.flatMap Part.bytes

/-- One line of a script (R63); NOP is the pseudo-command of R64. -/
inductive Line where
  | init
  | update (ps : List Part)
  | final
  | hash (ps : List Part)
  | nop
  | reset
deriving DecidableEq, Repr

/-- What a line brings to the port: a transaction, or a reset. NOP is UPDATE with an empty payload (R64). -/
def Line.event : Line → HostEvent
  | .init => .command (encode .init)
  | .update ps => .command (encode (.update (payload ps)))
  | .final => .command (encode .final)
  | .hash ps => .command (encode (.hash (payload ps)))
  | .nop => .command (encode (.update []))
  | .reset => .reset

/-- A word of a line, or a quoted string. -/
inductive Token where
  | word (cs : List Char)
  | quoted (cs : List Char)
deriving DecidableEq, Repr

/-- Where the reader stands in a line: between tokens, in a word, or in a string (read so far, last first). -/
inductive Mode where
  | gap
  | word (rev : List Char)
  | quoted (rev : List Char)

/-- The double quote. -/
def quote : Char := Char.ofNat 34

/-- The tokens of one line. Text after `;` is a comment (R63), but not inside a string.
DESIGN CHOICE (notes/assumptions/16): R63 has the parts of a payload separated by spaces and gives no meaning to a part
that follows a closing quote with no space between (`"a""b"`, `"a"62`); here the closing quote ends its part and the
next one begins, as if a space stood there. A quote inside a word (`62"a"`) makes the line none. -/
def tokens : Mode → List Char → Option (List Token)
  | .gap, [] => some []
  | .word rev, [] => some [.word rev.reverse]
  | .quoted _, [] => none
  | .gap, c :: cs =>
    if c = ';' then some []
    else if c = ' ' then tokens .gap cs
    else if c = quote then tokens (.quoted []) cs
    else tokens (.word [c]) cs
  | .word rev, c :: cs =>
    if c = ';' then some [.word rev.reverse]
    else if c = ' ' then (tokens .gap cs).map (.word rev.reverse :: ·)
    else if c = quote then none
    else tokens (.word (c :: rev)) cs
  | .quoted rev, c :: cs =>
    if c = quote then (tokens .gap cs).map (.quoted rev.reverse :: ·)
    else tokens (.quoted (c :: rev)) cs

/-- The value of a hexadecimal digit, of either case. -/
def hexDigit (c : Char) : Option Nat :=
  let n := c.toNat
  if 48 ≤ n ∧ n ≤ 57 then some (n - 48)
  else if 97 ≤ n ∧ n ≤ 102 then some (n - 87)
  else if 65 ≤ n ∧ n ≤ 70 then some (n - 55)
  else none

/-- A run of digit pairs, one pair per byte, first byte first (R63). -/
def hexBytes : List Char → Option (List Byte)
  | [] => some []
  | [_] => none
  | hi :: lo :: cs =>
    match hexDigit hi, hexDigit lo, hexBytes cs with
    | some h, some l, some bs => some (BitVec.ofNat 8 (16 * h + l) :: bs)
    | _, _, _ => none

/-- A decimal count. -/
def decimal (cs : List Char) : Option Nat :=
  if cs.isEmpty then none
  else cs.foldl (fun n c => n.bind fun n =>
    if 48 ≤ c.toNat ∧ c.toNat ≤ 57 then some (10 * n + (c.toNat - 48)) else none) (some 0)

/-- The characters of a string as bytes; only ASCII characters have one (R63). -/
def asciiBytes : List Char → Option (List Byte)
  | [] => some []
  | c :: cs => if c.toNat < 128 then (asciiBytes cs).map (BitVec.ofNat 8 c.toNat :: ·) else none

/-- The parts of a payload. -/
def parts : List Token → Option (List Part)
  | [] => some []
  | .quoted cs :: ts =>
    match asciiBytes cs, parts ts with
    | some bs, some ps => some (.text bs :: ps)
    | _, _ => none
  | .word b :: .word ['x'] :: .word n :: ts =>
    match hexBytes b, decimal n, parts ts with
    | some [b], some n, some ps => some (.repeated b n :: ps)
    | _, _, _ => none
  | .word cs :: ts =>
    match hexBytes cs, parts ts with
    | some bs, some ps => some (.hex bs :: ps)
    | _, _ => none

/-- The line that a list of tokens is: none where it is no line of R63, an empty list where it is blank. A
payload is never left out; an empty one is written as an empty string (R63). -/
def line : List Token → Option (List Line)
  | [] => some []
  | [.word ['I', 'N', 'I', 'T']] => some [.init]
  | [.word ['F', 'I', 'N', 'A', 'L']] => some [.final]
  | [.word ['N', 'O', 'P']] => some [.nop]
  | [.word ['R', 'E', 'S', 'E', 'T']] => some [.reset]
  | .word ['U', 'P', 'D', 'A', 'T', 'E'] :: t :: ts => (parts (t :: ts)).map fun ps => [.update ps]
  | .word ['H', 'A', 'S', 'H'] :: t :: ts => (parts (t :: ts)).map fun ps => [.hash ps]
  | _ => none

/-- The lines of a text. -/
def textLines : List Char → List (List Char)
  | [] => [[]]
  | c :: cs =>
    match c, textLines cs with
    | '\n', ls => [] :: ls
    | c, l :: ls => (c :: l) :: ls
    | c, [] => [[c]]

/-- The lines of a script, from its characters: none where some line is not one of R63. -/
def parse (text : List Char) : Option (List Line) :=
  (textLines text).foldr (fun cs rest =>
    match (tokens .gap cs).bind line, rest with
    | some ls, some more => some (ls ++ more)
    | _, _ => none) (some [])

/-- The state in which the host has a script to bring. -/
def load (ls : List Line) (s : State) : State := { s with events := ls.map Line.event }

end Sys2Proof.Machine.Script
end

