-- ==== Sys2Proof/Machine/Sha256.lean ====
section
/-! DEFINITION. What the commands compute, as one function of the message (40_streaming_hasher.md R75). The
machine does not call it: statements compare the machine with it. -/

namespace Sys2Proof.Machine

/-- The number of zero bytes between marker and length field: `(55 - n) mod 64` for a message of n bytes (R75,
R88), written without a negative number. -/
def padZeroCount (n : Nat) : Nat := (119 - n % 64) % 64

/-- `Padded(M)` (R75). -/
def padded (msg : List Byte) : List Byte :=
  msg ++ [Config.padMark] ++ zeros (padZeroCount msg.length) ++
    (bytesBe64 (BitVec.ofNat 64 (8 * msg.length))).toList

/-- The first `n` successive 64-byte blocks of a byte sequence. -/
def takeBlocks : Nat → List Byte → List Block
  | 0, _ => []
  | n + 1, bytes => blockOf (bytes.take 64) :: takeBlocks n (bytes.drop 64)

/-- All the whole blocks of a byte sequence, in order. -/
def wholeBlocks (bytes : List Byte) : List Block :=
  takeBlocks (bytes.length / 64) bytes

/-- `SHA256(M)` (R75); the function of FIPS 180-4 for messages shorter than 2^61 bytes (R124). -/
def sha256 (msg : List Byte) : Digest :=
  serialise ((wholeBlocks (padded msg)).foldl compress IV)

end Sys2Proof.Machine
end

