-- ==== Sys2Proof/Safety.lean ====
section
/-! DEFINITION. The terms claims are stated in: the invariant between commands, what it is for the context to
hold a message, runs of commands, and what a correct run is. -/

namespace Sys2Proof.Safety

open Sys2Proof.Machine

/-- Items 1, 2 and 4 of R31: what holds whenever the engine is between two commands. -/
structure Inv (s : State) : Prop where
  fill_lt : s.fill.val < 64
  active_fill : s.phase = .active → s.fill.val = s.cnt.toNat % 64
  done_fill : s.phase = .done → s.fill.val = 0

/-- Item 3 of R31: the context is ACTIVE and has absorbed exactly the message `msg` since it was fresh. -/
structure Absorbed (msg : List Byte) (s : State) : Prop where
  active : s.phase = .active
  count : s.cnt = BitVec.ofNat 64 msg.length
  cursor : s.fill.val = msg.length % 64
  folded : s.hash = (wholeBlocks msg).foldl compress IV
  pending : residualBytes s = msg.drop (64 * (msg.length / 64))

/-- Two states that hold the same message in progress, or the same digest, as R76 counts it: the same H, FILL,
CNT, PHASE and residual. Nothing is said of ERR, of BUF from FILL on, of the working storage, of the
responses given so far, or of the model's own fields. -/
structure SameContext (s₁ s₂ : State) : Prop where
  hash : s₁.hash = s₂.hash
  fill : s₁.fill = s₂.fill
  cnt : s₁.cnt = s₂.cnt
  phase : s₁.phase = s₂.phase
  pending : residualBytes s₁ = residualBytes s₂

/-- Misuse (R104): UPDATE or FINAL while PHASE = DONE, and nothing else. -/
def misuse (i : Instr) (s : State) : Bool :=
  match i, s.phase with
  | .update _, .done => true
  | .final, .done => true
  | _, _ => false

/-- The reading of R105 in which a refused command is a fault, so that "no fault" is the premise of a claim that
a run is correct; `exec` itself takes the refusal and goes on (notes/assumptions/2). -/
def execStrict (i : Instr) (s : State) : Host.Outcome State Fault Refusal :=
  if misuse i s then .fault .misuse else exec i s

/-- A list of commands, one after another; it ends at the first that gives no next state. -/
def runWith (f : Instr → State → Host.Outcome State Fault Refusal) :
    List Instr → State → Host.Outcome State Fault Refusal
  | [], s => .next s
  | i :: is, s =>
    match f i s with
    | .next t => runWith f is t
    | .fault r => .fault r
    | .refused r => .refused r

/-- A run as the engine performs it. -/
def runAll : List Instr → State → Host.Outcome State Fault Refusal := runWith exec

/-- A correct run: one that misuses the engine nowhere. -/
def runStrict : List Instr → State → Host.Outcome State Fault Refusal := runWith execStrict

/-- The commands of a message streamed in chunks (R65, R75). -/
def streamed (chunks : List (List Byte)) : List Instr := chunks.map .update ++ [.final]

/-- The state in which the host has exactly these commands to present. -/
def presenting (is : List Instr) (s : State) : State :=
  { s with events := is.map fun i => .command (encode i) }

/-- The events at the port that put the context back to its initial values: INIT, HASH and reset (R109). -/
def startsAfresh : HostEvent → Bool
  | .reset => true
  | .resetDuring _ => true
  | .command t => t.op == 0b00#2 || t.op == 0b11#2

end Sys2Proof.Safety
end

