-- ==== Sys2Proof/Certificates/Slice0/Obligations.lean ====
section
/-! DEFINITION. The statements for the provers. Every docstring names the rules of spec/ it formalises. -/

open Sys2Proof Sys2Proof.Machine Sys2Proof.Safety

/-! ## Encodings -/

/-- R50, R58: the four transactions, with every payload. The last four clauses read a command word given as a
number; that the words of UPDATE and HASH alone stand for an empty payload is the model's reading
(notes/assumptions/17). -/
def Obligations.CommandWordsDecodeAsTabled : Prop :=
  ∀ data : List Byte,
    decode ⟨0b00#2, []⟩ = .ok .init ∧
    decode ⟨0b01#2, data⟩ = .ok (.update data) ∧
    decode ⟨0b10#2, []⟩ = .ok .final ∧
    decode ⟨0b11#2, data⟩ = .ok (.hash data) ∧
    decodeTableWord 8 0x0 = some .init ∧
    decodeTableWord 8 0x1 = some (.update []) ∧
    decodeTableWord 8 0x2 = some .final ∧
    decodeTableWord 8 0x3 = some (.hash [])

/-- R50, R52, R61: every command has one encoding and every well-formed transaction is one command; what is not
a command is refused, and that is exactly a payload offered with INIT or FINAL (notes/assumptions/9). -/
def Obligations.DecodeAndEncodeAgree : Prop :=
  (∀ i : Instr, decode (encode i) = .ok i) ∧
  (∀ (t : Transaction) (i : Instr), decode t = .ok i → encode i = t) ∧
  (∀ t : Transaction, (∃ i, decode t = .ok i) ↔ t.wellFormed = true) ∧
  (∀ t : Transaction, t.wellFormed = false ↔ (t.op = 0b00#2 ∨ t.op = 0b10#2) ∧ t.payload ≠ [])

/-- R53, R61: a host reads back every response the engine gives; a status and payload that read as a response are
its encoding; status 11 reads as none. -/
def Obligations.ResponsesReadBack : Prop :=
  (∀ r : Rsp, decodeRsp (encodeRsp r) = .ok r) ∧
  (∀ (w : WireRsp) (r : Rsp), decodeRsp w = .ok r → encodeRsp r = w) ∧
  (∀ (w : WireRsp) (r : Rsp), w.st = 0b11#2 → decodeRsp w ≠ .ok r)

/-- R63, R64: a payload of several parts is their concatenation, in order; NOP is UPDATE with an empty string;
RESET is the reset event. -/
def Obligations.ScriptLinesStandForCommands : Prop :=
  ∀ (p q : Script.Part) (b : Byte) (n : Nat),
    (Script.Line.update [p, q]).event = .command (encode (.update (p.bytes ++ q.bytes))) ∧
    (Script.Line.hash [p, q]).event = .command (encode (.hash (p.bytes ++ q.bytes))) ∧
    (Script.Part.repeated b n).bytes = List.replicate n b ∧
    Script.Line.nop.event = (Script.Line.update [.text []]).event ∧
    Script.Line.init.event = .command (encode .init) ∧
    Script.Line.final.event = .command (encode .final) ∧
    Script.Line.reset.event = .reset

/-! ## Operators and byte order -/

/-- R12: the word operators, as exact integer arithmetic and bit by bit. -/
def Obligations.WordOperatorsAsDefined : Prop :=
  (∀ x y z : Word, (x + y).toNat = (x.toNat + y.toNat) % 2 ^ 32 ∧
    (x + y + z).toNat = (x.toNat + y.toNat + z.toNat) % 2 ^ 32 ∧ x + y + z = x + (y + z) ∧ x + y = y + x) ∧
  (∀ (x y : Word) (i : Nat), i < 32 →
    (x ^^^ y).getLsbD i = (x.getLsbD i ^^ y.getLsbD i) ∧ (x &&& y).getLsbD i = (x.getLsbD i && y.getLsbD i) ∧
    (not32 x).getLsbD i = !x.getLsbD i) ∧
  (∀ x : Word, (not32 x).toNat = 2 ^ 32 - 1 - x.toNat) ∧
  (∀ (x : Word) (n : Nat), 0 < n → n < 32 →
    (shr32 x n).toNat = x.toNat / 2 ^ n ∧
    (rotr32 x n).toNat = x.toNat / 2 ^ n + (x.toNat % 2 ^ n) * 2 ^ (32 - n) ∧
    ∀ i, i < 32 → (rotr32 x n).getLsbD i = x.getLsbD ((i + n) % 32)) ∧
  (∀ (x y : Word64) (n : Nat),
    (x + y).toNat = (x.toNat + y.toNat) % 2 ^ 64 ∧ (shl64 x n).toNat = (x.toNat * 2 ^ n) % 2 ^ 64)

/-- R13, R33, R57: every conversion between bytes and wider values is big-endian, and none loses a bit; the bit
length is the counter times 8, mod 2^64. -/
def Obligations.ConversionsAreBigEndian : Prop :=
  (∀ b0 b1 b2 b3 : Byte, (be32 b0 b1 b2 b3).toNat =
    b0.toNat * 2 ^ 24 + b1.toNat * 2 ^ 16 + b2.toNat * 2 ^ 8 + b3.toNat) ∧
  (∀ (w : Word) (k : Fin 4), (bytesBe32 w)[k].toNat = w.toNat / 2 ^ (24 - 8 * k.val) % 256) ∧
  (∀ (v : Word64) (k : Fin 8), (bytesBe64 v)[k].toNat = v.toNat / 2 ^ (56 - 8 * k.val) % 256) ∧
  (∀ w : Word, be32 (bytesBe32 w)[0] (bytesBe32 w)[1] (bytesBe32 w)[2] (bytesBe32 w)[3] = w) ∧
  (∀ c : Word64, (bitLength c).toNat = c.toNat * 8 % 2 ^ 64)

/-- R60, R71: digest byte 4i + k is bits 31 - 8k to 24 - 8k of H[i]. -/
def Obligations.DigestBytesInStateOrder : Prop :=
  ∀ (hs : HashState) (i : Fin 8) (k : Fin 4),
    (serialise hs)[4 * i.val + k.val] = hs[i].extractLsb' (24 - 8 * k.val) 8

/-- R14, R35: after MemWrite of the bytes `bs` at `addr`, each byte of BUF in that range reads as the byte
written there, and every other byte reads as before; a word read sees the four bytes at 4t to 4t + 3.
That a write that runs past index 63 still stores its bytes below 64 is the model's reading (notes/assumptions/10). -/
def Obligations.BufferReadsWhatWasWritten : Prop :=
  (∀ (buf : Block) (addr : Nat) (bs : List Byte) (k : Fin 64),
    (addr ≤ k.val ∧ k.val < addr + bs.length → (memWrite buf addr bs)[k] = bs.getD (k.val - addr) 0) ∧
    (k.val < addr ∨ addr + bs.length ≤ k.val → (memWrite buf addr bs)[k] = buf[k])) ∧
  (∀ (buf : Block) (t : Fin 16), memReadWord buf t =
    be32 (buf.toList.getD (4 * t.val) 0) (buf.toList.getD (4 * t.val + 1) 0)
      (buf.toList.getD (4 * t.val + 2) 0) (buf.toList.getD (4 * t.val + 3) 0))

/-! ## Constants -/

/-- R27, R28: IV[i] is the first 32 bits of the fractional part of the square root of the i-th prime, K[j] of the
cube root of the j-th: `r` is the root times 2^32, rounded down. -/
def Obligations.ConstantsAreRootsOfPrimes : Prop :=
  (∀ i : Fin 8, ∃ q : Fin 8,
    let p := [2, 3, 5, 7, 11, 13, 17, 19].getD i.val 0
    let r := q.val * 2 ^ 32 + IV[i].toNat
    r ^ 2 ≤ p * 2 ^ 64 ∧ p * 2 ^ 64 < (r + 1) ^ 2) ∧
  (∀ j : Fin 64, ∃ q : Fin 8,
    let p := ([2, 3, 5, 7, 11, 13, 17, 19, 23, 29, 31, 37, 41, 43, 47, 53, 59, 61, 67, 71, 73, 79, 83, 89, 97, 101,
      103, 107, 109, 113, 127, 131, 137, 139, 149, 151, 157, 163, 167, 173, 179, 181, 191, 193, 197, 199, 211,
      223, 227, 229, 233, 239, 241, 251, 257, 263, 269, 271, 277, 281, 283, 293, 307, 311]).getD j.val 0
    let r := q.val * 2 ^ 32 + K[j].toNat
    r ^ 3 ≤ p * 2 ^ 96 ∧ p * 2 ^ 96 < (r + 1) ^ 3)

/-! ## The message schedule and the compression -/

/-- R80, R81: σ0 and σ1 bit by bit; the third term is a shift, so zeros enter at the top; both are linear over
xor; the corner cases and examples of the rules. -/
def Obligations.SmallSigmasBitByBit : Prop :=
  (∀ (x : Word) (i : Nat), i < 32 →
    (sigma0 x).getLsbD i =
      ((x.getLsbD ((i + 7) % 32) ^^ x.getLsbD ((i + 18) % 32)) ^^ (decide (i + 3 < 32) && x.getLsbD (i + 3))) ∧
    (sigma1 x).getLsbD i =
      ((x.getLsbD ((i + 17) % 32) ^^ x.getLsbD ((i + 19) % 32)) ^^ (decide (i + 10 < 32) && x.getLsbD (i + 10)))) ∧
  (∀ x y : Word, sigma0 (x ^^^ y) = sigma0 x ^^^ sigma0 y ∧ sigma1 (x ^^^ y) = sigma1 x ^^^ sigma1 y) ∧
  sigma0 0 = 0 ∧ sigma0 0xffffffff = 0x1fffffff ∧ sigma0 0x00000001 = 0x02004000 ∧
  sigma1 0 = 0 ∧ sigma1 0xffffffff = 0x003fffff ∧ sigma1 0x00000001 = 0x0000a000

/-- R91: Ch chooses, bit by bit, between f and g; the xor could be an or; the corner cases. R92: Maj takes the
value that at least two of its arguments have; it is symmetric; the corner cases. -/
def Obligations.ChChoosesAndMajVotes : Prop :=
  (∀ (e f g : Word) (i : Nat), i < 32 →
    (Ch e f g).getLsbD i = (if e.getLsbD i then f.getLsbD i else g.getLsbD i)) ∧
  (∀ e f g : Word, Ch e f g = (e &&& f) ||| (not32 e &&& g) ∧ Ch 0 f g = g ∧ Ch 0xffffffff f g = f ∧
    Ch e f f = f) ∧
  (∀ (a b c : Word) (i : Nat), i < 32 →
    (Maj a b c).getLsbD i =
      decide (2 ≤ (a.getLsbD i).toNat + (b.getLsbD i).toNat + (c.getLsbD i).toNat)) ∧
  (∀ a b c : Word, Maj a b c = Maj b a c ∧ Maj a b c = Maj a c b ∧ Maj a a b = a ∧
    Maj 0 b c = b &&& c ∧ Maj 0xffffffff b c = b ||| c) ∧
  Ch 0x510e527f 0x9b05688c 0x1f83d9ab = 0x1f85c98c ∧ Maj 0x6a09e667 0xbb67ae85 0x3c6ef372 = 0x3a6fe667

/-- R93, R94: Σ0 and Σ1 bit by bit: three rotations, no shift. -/
def Obligations.CapitalSigmasBitByBit : Prop :=
  ∀ (x : Word) (i : Nat), i < 32 →
    (Sigma0 x).getLsbD i =
      ((x.getLsbD ((i + 2) % 32) ^^ x.getLsbD ((i + 13) % 32)) ^^ x.getLsbD ((i + 22) % 32)) ∧
    (Sigma1 x).getLsbD i =
      ((x.getLsbD ((i + 6) % 32) ^^ x.getLsbD ((i + 11) % 32)) ^^ x.getLsbD ((i + 25) % 32))

/-- R79, R82, R83: the first 16 words are the block's, the other 48 obey the recurrence; SCHED reads nothing but
the 64 bytes and writes nothing but W, whatever W held before; the all-zero block gives the all-zero
schedule. -/
def Obligations.ScheduleFollowsRecurrence : Prop :=
  (∀ (block : Block) (t : Fin 16),
    (sched block)[t.val] = be32 block[4 * t.val] block[4 * t.val + 1] block[4 * t.val + 2] block[4 * t.val + 3]) ∧
  (∀ (block : Block) (i : Fin 48),
    (sched block)[i.val + 16] =
      sigma1 (sched block)[i.val + 14] + sigma0 (sched block)[i.val + 1] + (sched block)[i.val + 9] +
        (sched block)[i.val]) ∧
  (∀ (buf : Block) (x : Scratch), x.sched buf = { x with w := sched buf }) ∧
  sched (Vector.replicate 64 0) = Vector.replicate 64 0

/-- R97: one round, in place: T1 and T2 from the values before it, six variables move one place, the new e is the
old d plus T1, the new a is T1 plus T2; the same j selects K and W, and moves on (R26). -/
def Obligations.RoundReplacesAllEight : Prop :=
  ∀ (x : Scratch) (hj : x.j.val < 64),
    let v := x.vars
    let t1 := v.h + Sigma1 v.e + Ch v.e v.f v.g + K[x.j.val] + x.w[x.j.val]
    let t2 := Sigma0 v.a + Maj v.a v.b v.c
    x.round.t1 = t1 ∧ x.round.t2 = t2 ∧
    x.round.vars = ⟨t1 + t2, v.a, v.b, v.c, v.d + t1, v.e, v.f, v.g⟩ ∧
    x.round.j.val = x.j.val + 1 ∧ x.round.w = x.w

/-- R95, R96, R98, R102: COMPRESS(), which runs SCHED, the load, the 64 rounds and the add on the engine's own
storage, is `H <- Compress(H, BUF)`, with Compress the plain fold of rounds; and it changes nothing else but
the working storage. -/
def Obligations.CompressInPlaceIsCompress : Prop :=
  ∀ s : State,
    (compressBuffer s).hash = compress s.hash s.buf ∧
    (compressBuffer s).buf = s.buf ∧ (compressBuffer s).fill = s.fill ∧ (compressBuffer s).cnt = s.cnt ∧
    (compressBuffer s).phase = s.phase ∧ (compressBuffer s).err = s.err ∧
    (compressBuffer s).events = s.events ∧ (compressBuffer s).responses = s.responses

/-! ## Padding -/

/-- R55: the final-block layouts, byte by byte, chosen by the residual's length alone. -/
def Obligations.PaddingLayouts : Prop :=
  ∀ (res : List Byte) (len : Word64), res.length ≤ 63 →
    (res.length ≤ 55 → ∃ b : List Byte, pad res len = [b] ∧ b.length = 64 ∧ ∀ k, k < 64 →
      b.getD k 0 =
        if k < res.length then res.getD k 0
        else if k = res.length then 0x80
        else if k < 56 then 0x00
        else (bytesBe64 len).toList.getD (k - 56) 0) ∧
    (56 ≤ res.length → ∃ b c : List Byte, pad res len = [b, c] ∧ b.length = 64 ∧ c.length = 64 ∧
      (∀ k, k < 64 → b.getD k 0 =
        if k < res.length then res.getD k 0 else if k = res.length then 0x80 else 0x00) ∧
      (∀ k, k < 64 → c.getD k 0 = if k < 56 then 0x00 else (bytesBe64 len).toList.getD (k - 56) 0))

/-- R56: the length field of the last block, as bytes and as schedule words. -/
def Obligations.LengthFieldOfLastBlock : Prop :=
  ∀ (res : List Byte) (len : Word64), res.length ≤ 63 →
    ∃ last : List Byte, (pad res len).getLast? = some last ∧
      (∀ i : Fin 8, last.getD (56 + i.val) 0 = len.extractLsb' (56 - 8 * i.val) 8) ∧
      (sched (blockOf last))[14] = len.extractLsb' 32 32 ∧
      (sched (blockOf last))[15] = len.extractLsb' 0 32

/-! ## The commands -/

/-- R66: INIT, from every state: the fresh context and ACK; BUF is not cleared; nothing else changes. INIT after
INIT, or right after reset, changes nothing but that a response is given. That the working storage and the bytes of
BUF from FILL on are left as they were is the model's reading (notes/assumptions/5, 11), not a promise of the rule. -/
def Obligations.InitGivesFreshContext : Prop :=
  (∀ s : State, ∃ t : State, exec .init s = .next t ∧
    t.hash = IV ∧ t.cnt = 0 ∧ t.fill = 0 ∧ t.phase = .active ∧ t.err = false ∧ digestValid t = false ∧
    t.responses = s.responses ++ [.ack] ∧
    t.buf = s.buf ∧ t.scratch = s.scratch ∧ t.events = s.events ∧ t.draws = s.draws ∧
    exec .init t = .next (respond .ack t)) ∧
  exec .init State.reset = .next (respond .ack State.reset)

/-- R67: ABSORB of one byte, with 0 ≤ FILL ≤ 63: BUF[FILL] <- b, FILL + 1, CNT + 1 mod 2^64; when that was the
64th byte, the block is folded into H and FILL <- 0. That the working storage is left as it was when the byte is not
the 64th is the model's reading (notes/assumptions/5; R24 to R26 promise nothing of it); `draws` is the model's
count of compressions. -/
def Obligations.AbsorbTakesOneByte : Prop :=
  ∀ (b : Byte) (s : State) (hf : s.fill.val < 64),
    let buf := s.buf.set s.fill.val b
    (absorb b s).buf = buf ∧ (absorb b s).cnt = s.cnt + 1 ∧
    (absorb b s).phase = s.phase ∧ (absorb b s).err = s.err ∧
    (absorb b s).events = s.events ∧ (absorb b s).responses = s.responses ∧
    (s.fill.val < 63 → (absorb b s).fill.val = s.fill.val + 1 ∧ (absorb b s).hash = s.hash ∧
      (absorb b s).scratch = s.scratch ∧ (absorb b s).draws = s.draws) ∧
    (s.fill.val = 63 → (absorb b s).fill = 0 ∧ (absorb b s).hash = compress s.hash buf ∧
      (absorb b s).draws = s.draws + 1)

/-- R68: UPDATE. In PHASE = ACTIVE, its effects in closed form and its frame: byte i of the payload is stored at
BUF[(f + i) mod 64], and every byte of BUF stored to by none of them keeps its value; with an empty payload
nothing changes but that ACK is given. In PHASE = DONE it is refused and absorbs nothing. The residual is
BUF[0..FILL-1]; `draws` counts compressions. That the refusal is a next state, that dead bytes of BUF keep their
value, and that the working storage is kept when no block completes are the model's (notes/assumptions/2, 11,
5). -/
def Obligations.UpdateAbsorbsItsPayload : Prop :=
  (∀ (data : List Byte) (s : State), s.phase = .active → s.fill.val < 64 →
    let f := s.fill.val
    let n := data.length
    let bytes := residualBytes s ++ data
    ∃ t : State, exec (.update data) s = .next t ∧
      t.cnt = s.cnt + BitVec.ofNat 64 n ∧
      t.hash = (takeBlocks ((f + n) / 64) bytes).foldl compress s.hash ∧
      t.fill.val = (f + n) % 64 ∧
      residualBytes t = bytes.drop (64 * ((f + n) / 64)) ∧
      t.draws = s.draws + (f + n) / 64 ∧
      t.phase = s.phase ∧ t.err = s.err ∧ t.events = s.events ∧ t.responses = s.responses ++ [.ack] ∧
      (f + n < 64 → t.scratch = s.scratch) ∧
      (∀ k : Fin 64, (∀ i, i < n → (f + i) % 64 ≠ k.val) → t.buf[k] = s.buf[k])) ∧
  (∀ s : State, s.phase = .active → exec (.update []) s = .next (respond .ack s)) ∧
  (∀ (data : List Byte) (s : State), s.phase = .done → exec (.update data) s =
    .next { s with err := true, responses := s.responses ++ [.error .misuseAfterFinal] })

/-- R69, R70: FINAL. In PHASE = ACTIVE the in-place padding folds into H exactly the blocks that PAD gives for the
residual and the bit length (R90), one when FILL ≤ 55 and two otherwise; BUF is left holding the last of them;
PHASE = DONE, FILL = 0, CNT and ERR unchanged, and the response is the serialised H, which the DIGEST view
shows too. In PHASE = DONE it is refused. That the refusal is a next state, and that CNT, FILL and BUF hold in DONE
what R70 states where it lets a model keep any values, are the model's choices (notes/assumptions/2, 12). -/
def Obligations.FinalPadsAndAnswersDigest : Prop :=
  (∀ s : State, s.phase = .active → s.fill.val < 64 →
    let blocks := (pad (residualBytes s) (bitLength s.cnt)).map blockOf
    blocks.length = (if s.fill.val ≤ 55 then 1 else 2) ∧
    ∃ t : State, exec .final s = .next t ∧
      t.hash = blocks.foldl compress s.hash ∧
      blocks.getLast? = some t.buf ∧
      t.fill = 0 ∧ t.cnt = s.cnt ∧ t.phase = .done ∧ t.err = s.err ∧ t.events = s.events ∧
      t.draws = s.draws + blocks.length ∧
      t.responses = s.responses ++ [.digest (serialise t.hash)] ∧
      digestView t = some (serialise t.hash)) ∧
  (∀ s : State, s.phase = .done → exec .final s =
    .next { s with err := true, responses := s.responses ++ [.error .misuseAfterFinal] })

/-- R72: HASH, from every state: its end state is the end state of INIT, UPDATE, FINAL issued one after the other,
and its one response is that FINAL's. ERR <- 0, PHASE <- DONE. -/
def Obligations.HashIsInitUpdateFinal : Prop :=
  ∀ (data : List Byte) (s : State), ∃ (t u : State) (d : Digest),
    exec (.hash data) s = .next t ∧
    runAll [.init, .update data, .final] s = .next u ∧
    u.responses = s.responses ++ [.ack, .ack, .digest d] ∧
    t = { u with responses := s.responses ++ [.digest d] } ∧
    t.err = false ∧ t.phase = .done ∧ t.events = s.events

/-- R72 with R68 to R70: what HASH leaves in every register, from every state: H, CNT, FILL, PHASE, ERR, BUF and
the number of compressions depend on the payload alone. That CNT, FILL and BUF hold in DONE what R70 states, where
it lets a model keep any values, is the model's choice (notes/assumptions/12). -/
def Obligations.HashLeavesPayloadsDigest : Prop :=
  ∀ (data : List Byte) (s : State),
    let blocks := wholeBlocks data ++
      (pad (data.drop (64 * (data.length / 64))) (bitLength (BitVec.ofNat 64 data.length))).map blockOf
    ∃ t : State, exec (.hash data) s = .next t ∧
      t.hash = blocks.foldl compress IV ∧ t.cnt = BitVec.ofNat 64 data.length ∧ t.fill = 0 ∧ t.phase = .done ∧
      t.err = false ∧ blocks.getLast? = some t.buf ∧ t.draws = s.draws + blocks.length ∧ t.events = s.events ∧
      t.responses = s.responses ++ [.digest (serialise t.hash)]

/-- R104, R105: Misuse is raised exactly by UPDATE (any payload) and FINAL in PHASE = DONE. The engine's step then
sets ERR, answers ERROR(0x01) and changes nothing else, so the DIGEST view still shows the last digest; in the
strict reading the step is the fault Misuse. Every other command is the same in both readings and its response
is no ERROR. That `exec` goes on to a next state is the model's choice between the two readings
(notes/assumptions/2). -/
def Obligations.MisuseIsRefusedPrecisely : Prop :=
  (∀ (i : Instr) (s : State), misuse i s = true ↔ s.phase = .done ∧ ((∃ d, i = .update d) ∨ i = .final)) ∧
  (∀ (i : Instr) (s : State), misuse i s = true →
    exec i s = .next { s with err := true, responses := s.responses ++ [.error .misuseAfterFinal] } ∧
    encodeRsp (.error .misuseAfterFinal) = ⟨0b10#2, [0x01]⟩ ∧
    digestView { s with err := true, responses := s.responses ++ [.error .misuseAfterFinal] } =
      some (serialise s.hash) ∧
    execStrict i s = .fault .misuse) ∧
  (∀ (i : Instr) (s : State), misuse i s = false →
    execStrict i s = exec i s ∧
    ∃ (t : State) (r : Rsp), exec i s = .next t ∧ t.responses = s.responses ++ [r] ∧
      r ≠ .error .misuseAfterFinal)

/-- R59: which command gives which response; with the PHASE columns of R73. That a refusal is a next state is the
model's choice (notes/assumptions/2). -/
def Obligations.ResponsesAndPhasesPaired : Prop :=
  ∀ (s : State) (data : List Byte),
    (∃ t, exec .init s = .next t ∧ t.responses = s.responses ++ [.ack] ∧ t.phase = .active) ∧
    (s.phase = .active →
      ∃ t, exec (.update data) s = .next t ∧ t.responses = s.responses ++ [.ack] ∧ t.phase = .active) ∧
    (s.phase = .done → ∃ t, exec (.update data) s = .next t ∧
      t.responses = s.responses ++ [.error .misuseAfterFinal] ∧ t.phase = .done) ∧
    (s.phase = .active →
      ∃ t d, exec .final s = .next t ∧ t.responses = s.responses ++ [.digest d] ∧ t.phase = .done) ∧
    (s.phase = .done → ∃ t, exec .final s = .next t ∧
      t.responses = s.responses ++ [.error .misuseAfterFinal] ∧ t.phase = .done) ∧
    (∃ t d, exec (.hash data) s = .next t ∧ t.responses = s.responses ++ [.digest d] ∧ t.phase = .done)

/-- R128, R106: every command, in every state, ends in a next state with exactly one response, and takes nothing
from the port. That a refused UPDATE or FINAL ends in a next state and not in a fault is the model's choice between
the readings of R105 (notes/assumptions/2). -/
def Obligations.EveryCommandEndsWithOneResponse : Prop :=
  ∀ (i : Instr) (s : State), ∃ (t : State) (r : Rsp),
    exec i s = .next t ∧ t.responses = s.responses ++ [r] ∧ t.events = s.events

/-- R74: how many compressions the commands perform; `draws` counts them. -/
def Obligations.CompressionsAreCounted : Prop :=
  (∀ s t : State, exec .init s = .next t → t.draws = s.draws) ∧
  (∀ (data : List Byte) (s t : State), s.phase = .active → s.fill.val < 64 →
    exec (.update data) s = .next t → t.draws = s.draws + (s.fill.val + data.length) / 64) ∧
  (∀ s t : State, s.phase = .active → s.fill.val < 64 → exec .final s = .next t →
    t.draws = s.draws + (if s.fill.val ≤ 55 then 1 else 2)) ∧
  (∀ (i : Instr) (s t : State), misuse i s = true → exec i s = .next t → t.draws = s.draws) ∧
  (∀ (chunks : List (List Byte)) (s : State), ∃ t u : State,
    let n := chunks.flatten.length
    runAll (.init :: streamed chunks) s = .next t ∧ t.draws = s.draws + ((n + 8) / 64 + 1) ∧
    exec (.hash chunks.flatten) s = .next u ∧ u.draws = s.draws + ((n + 8) / 64 + 1) ∧
    (n + 8) / 64 + 1 = n / 64 + (if n % 64 ≤ 55 then 1 else 2))

/-! ## The machine as a whole -/

/-- R75: after INIT from any state, or after reset, any sequence of UPDATEs whose payloads concatenate to M,
followed by FINAL, answers DIGEST(SHA256(M)), and HASH M answers the same, for every M shorter than 2^61
bytes. -/
def Obligations.StreamedMessageAnswersSha256 : Prop :=
  ∀ (s : State) (chunks : List (List Byte)), chunks.flatten.length < 2 ^ 61 →
    (∃ t, runAll (.init :: streamed chunks) s = .next t ∧
      t.responses = s.responses ++ ([.ack] ++ chunks.map (fun _ => .ack) ++ [.digest (sha256 chunks.flatten)])) ∧
    (∃ t, runAll (streamed chunks) (resetEngine s) = .next t ∧
      t.responses = s.responses ++ (chunks.map (fun _ => .ack) ++ [.digest (sha256 chunks.flatten)])) ∧
    (∃ t, exec (.hash chunks.flatten) s = .next t ∧
      t.responses = s.responses ++ [.digest (sha256 chunks.flatten)])

/-- R77: chunking invariance, of the whole context and of the digest; splitting an UPDATE gives one response more
and changes nothing else, and a message streamed in any chunks ends in the same state as HASH of it, with the
same digest. The rule says so of the context; that the states agree in BUF from FILL on and in the working storage
too is the model's (notes/assumptions/5, 11), and that a run is one list of commands (notes/assumptions/6). -/
def Obligations.ChunkingDoesNotMatter : Prop :=
  (∀ (a b : List Byte) (s : State), s.phase = .active → ∃ t u : State,
    runAll [.update a, .update b] s = .next t ∧ exec (.update (a ++ b)) s = .next u ∧
    t = { u with responses := s.responses ++ [.ack, .ack] }) ∧
  (∀ (chunks : List (List Byte)) (s : State), ∃ (t u : State) (d : Digest),
    runAll (.init :: streamed chunks) s = .next t ∧ exec (.hash chunks.flatten) s = .next u ∧
    t = { u with responses := s.responses ++ ([.ack] ++ chunks.map (fun _ => .ack) ++ [.digest d]) } ∧
    u.responses = s.responses ++ [.digest d])

/-- R76: what a run of commands answers depends on the context alone: not on BUF from FILL on, not on the working
storage, not on ERR, not on earlier responses. The premise FILL ≤ 63 is item 1 of R31. That a run goes
on past a refused command, so that every list ends in a next state, is the model's choice (notes/assumptions/2). -/
def Obligations.DeadStateNeverMatters : Prop :=
  ∀ (is : List Instr) (s₁ s₂ : State), s₁.fill.val < 64 → SameContext s₁ s₂ →
    ∃ (t₁ t₂ : State) (rs : List Rsp),
      runAll is s₁ = .next t₁ ∧ runAll is s₂ = .next t₂ ∧ SameContext t₁ t₂ ∧
      t₁.responses = s₁.responses ++ rs ∧ t₂.responses = s₂.responses ++ rs

/-- R76: a message begun by INIT gets the same answers from any two states, and so does HASH: the results do not
depend on earlier messages. -/
def Obligations.HistoryNeverMatters : Prop :=
  ∀ (chunks : List (List Byte)) (data : List Byte) (s₁ s₂ : State), ∃ (t₁ t₂ u₁ u₂ : State) (rs : List Rsp) (r : Rsp),
    runAll (.init :: streamed chunks) s₁ = .next t₁ ∧ runAll (.init :: streamed chunks) s₂ = .next t₂ ∧
    t₁.responses = s₁.responses ++ rs ∧ t₂.responses = s₂.responses ++ rs ∧ SameContext t₁ t₂ ∧
    exec (.hash data) s₁ = .next u₁ ∧ exec (.hash data) s₂ = .next u₂ ∧
    u₁.responses = s₁.responses ++ [r] ∧ u₂.responses = s₂.responses ++ [r] ∧ SameContext u₁ u₂

/-- R31, items 1, 2 and 4: every step, from every state that has them, keeps them. -/
def Obligations.StepKeepsInv : Prop :=
  ∀ s t : State, Inv s → step s = .next t → Inv t

/-- R31, R32: they hold after reset. -/
def Obligations.ResetHasInv : Prop := Inv State.reset

/-- R31, item 3: what the context holds while a message is streamed: CNT counts it, H is IV folded with its whole
blocks, BUF holds its last bytes. It starts empty at reset and INIT, each UPDATE appends its payload, and a
FINAL answers from it. -/
def Obligations.ContextHoldsTheMessage : Prop :=
  (∀ s : State, Absorbed [] (resetEngine s)) ∧
  (∀ s : State, ∃ t, exec .init s = .next t ∧ Absorbed [] t) ∧
  (∀ (msg data : List Byte) (s : State), Absorbed msg s →
    ∃ t, exec (.update data) s = .next t ∧ Absorbed (msg ++ data) t) ∧
  (∀ (msg : List Byte) (s : State), Absorbed msg s → msg.length < 2 ^ 61 →
    ∃ t, exec .final s = .next t ∧ digestView t = some (sha256 msg)) ∧
  (∀ (msg : List Byte) (s : State), Absorbed msg s → Inv s)

/-- R17: H has two writers: the Compression Function, block by block, and the initialisation by INIT, HASH and
reset. -/
def Obligations.HashStateHasTwoWriters : Prop :=
  ∀ s t : State, step s = .next t → ∃ blocks : List Block, t.draws = s.draws + blocks.length ∧
    (t.hash = blocks.foldl compress s.hash ∨
      (t.hash = blocks.foldl compress IV ∧ ∃ e rest, s.events = e :: rest ∧ startsAfresh e = true))

/-- R22, R109: ERR is set by a refused command and by nothing else, and cleared by INIT, HASH and reset and by
nothing else. The steps meant are those that answer a next state, a refused command's among them by the model's
choice (notes/assumptions/2). -/
def Obligations.ErrIsSticky : Prop :=
  ∀ s t : State, step s = .next t →
    (s.err = false → t.err = true → s.phase = .done ∧ ∃ tx rest i,
      s.events = .command tx :: rest ∧ decode tx = .ok i ∧ ((∃ d, i = .update d) ∨ i = .final)) ∧
    (s.err = true → t.err = false → ∃ e rest, s.events = e :: rest ∧ startsAfresh e = true) ∧
    ((∃ e rest, s.events = e :: rest ∧ startsAfresh e = true) → t.err = false)

/-- R22: no rule reads ERR to decide anything: changed beforehand, it changes nothing but itself. That a refused
UPDATE or FINAL answers a next state is the model's choice (notes/assumptions/2). -/
def Obligations.ErrIsReadByNothing : Prop :=
  ∀ (i : Instr) (s : State) (b : Bool), ∃ t u : State,
    exec i s = .next t ∧ exec i { s with err := b } = .next u ∧ { u with err := t.err } = t

/-- R23: digest_valid is 1 exactly when PHASE = DONE; while it is 1 the DIGEST view shows the serialised H, and
keeps showing it until INIT, HASH or reset; while it is 0 it shows nothing; a DIGEST response carries the bytes
the view then shows. The steps of the second clause include a refused command and a step with nothing at the port,
which are next states by the model's choice (notes/assumptions/2, 6). -/
def Obligations.DigestViewLastsUntilFreshStart : Prop :=
  (∀ s : State, (digestValid s = true ↔ s.phase = .done) ∧
    (s.phase = .done → digestView s = some (serialise s.hash)) ∧ (s.phase = .active → digestView s = none)) ∧
  (∀ (s t : State) (d : Digest), digestView s = some d → step s = .next t →
    (∀ e rest, s.events = e :: rest → startsAfresh e = false) → digestView t = some d) ∧
  (∀ (i : Instr) (s t : State) (d : Digest), exec i s = .next t → t.responses = s.responses ++ [.digest d] →
    digestView t = some d)

/-- R117: reset, between two commands or in the middle of one: H = IV, CNT = 0, FILL = 0, PHASE = ACTIVE, ERR = 0,
no response; exactly the effect of INIT on these; the result does not depend on what the engine held. That the
dead state, BUF and the working storage, is the same too rests on the model's choice of its value at reset
(notes/assumptions/3, 4, 8). -/
def Obligations.ResetForgetsTheEngine : Prop :=
  (∀ (s : State) (tx : Transaction) (rest : List HostEvent),
    s.events = .reset :: rest ∨ s.events = .resetDuring tx :: rest →
    ∃ t : State, step s = .next t ∧
      t.hash = IV ∧ t.cnt = 0 ∧ t.fill = 0 ∧ t.phase = .active ∧ t.err = false ∧ digestValid t = false ∧
      t.events = rest ∧ t.responses = s.responses ∧ SameContext t (initContext s)) ∧
  (∀ (s₁ s₂ : State) (tx : Transaction) (rest : List HostEvent),
    s₁.events = .reset :: rest → s₂.events = .resetDuring tx :: rest →
    s₁.responses = s₂.responses → s₁.draws = s₂.draws → step s₁ = step s₂)

/-- R42, R49, R58: a step runs the command that the transaction at the port decodes to, on the state from which
that transaction has been taken; a transaction that is no command is refused by name; with nothing at the port
nothing changes (notes/assumptions/6, 9). The word form is what `withFetchWord` places, read as
notes/assumptions/17 says. -/
def Obligations.StepRunsTheDecodedCommand : Prop :=
  (∀ (s : State) (tx : Transaction) (rest : List HostEvent) (i : Instr),
    s.events = .command tx :: rest → decode tx = .ok i → step s = exec i { s with events := rest }) ∧
  (∀ (s : State) (tx : Transaction) (rest : List HostEvent) (e : DecodeError),
    s.events = .command tx :: rest → decode tx = .error e → step s = .refused (.illFormed e)) ∧
  (∀ s : State, s.events = [] → step s = .next s) ∧
  (∀ (s : State) (nbits w : Nat) (i : Instr), decodeTableWord nbits w = some i →
    step (s.withFetchWord nbits w) = exec i s)

/-- R42, R128: a host that presents a list of commands gets them run to the end, in order, one step and one
response each, as `runAll` runs them; then the engine waits. That a list with refused commands
runs on, that the commands stand in a list at the port, and that a step with nothing there changes nothing, are the
model's choices
(notes/assumptions/2, 6). -/
def Obligations.PresentedCommandsRunToTheEnd : Prop :=
  ∀ (is : List Instr) (s : State), ∃ t : State,
    Host.Core.run core is.length (presenting is s) = .next t ∧
    runAll is (presenting [] s) = .next t ∧
    t.events = [] ∧ t.responses.length = s.responses.length + is.length ∧ step t = .next t

/-- R105: "no ERROR response was received" is the premise of a correct run: a run is free of misuse exactly when
none of its responses is an ERROR, and then the strict run and the engine's run are the same and leave ERR
clear if it was clear. That the engine's run goes on past an ERROR to a next state, while the strict run faults there,
is the model's choice to state both readings of R105 (notes/assumptions/2). -/
def Obligations.StrictRunsAreRunsWithoutError : Prop :=
  ∀ (is : List Instr) (s : State), ∃ (t : State) (rs : List Rsp),
    runAll is s = .next t ∧ t.responses = s.responses ++ rs ∧
    (runStrict is s = .next t ↔ .error .misuseAfterFinal ∉ rs) ∧
    (.error .misuseAfterFinal ∈ rs → runStrict is s = .fault .misuse) ∧
    (.error .misuseAfterFinal ∉ rs → s.err = false → t.err = false)

/-- R38: INIT, HASH with the same payload, and a refused command leave, the second time, what they left the first
time: H, FILL, CNT, PHASE, ERR and BUF are unchanged. That a refused command answers a next state, and what BUF
holds from FILL on, are the model's choices (notes/assumptions/2, 11, 12). -/
def Obligations.RepeatedCommandsChangeNothing : Prop :=
  ∀ (i : Instr) (s t u : State), (i = .init ∨ (∃ d, i = .hash d) ∨ misuse i s = true) →
    exec i s = .next t → exec i t = .next u →
    u.hash = t.hash ∧ u.fill = t.fill ∧ u.cnt = t.cnt ∧ u.phase = t.phase ∧ u.err = t.err ∧ u.buf = t.buf

/-- R115, R48: a step of one engine is that engine's own step and changes nothing in another; steps of two engines
may be taken in either order. Several engines as an array of states, one of which steps at a time, are the model's
form (notes/assumptions/18). -/
def Obligations.EnginesAreIndependent : Prop :=
  (∀ (n : Nat) (i : Fin n) (es es' : Engines n), stepAt i es = .next es' →
    step es[i] = .next es'[i] ∧ ∀ j : Fin n, j ≠ i → es'[j] = es[j]) ∧
  (∀ (n : Nat) (i j : Fin n) (es a b : Engines n), i ≠ j →
    stepAt i es = .next a → stepAt j es = .next b →
    ∃ c, stepAt j a = .next c ∧ stepAt i b = .next c)
end

