-- ==== Sys2Proof/Laws/State.lean ====
section
/-! SUPPORT. What each update of the state does to each field: one lemma per field per update, true by unfolding
the update once, so that no later proof unfolds it again. -/

namespace Sys2Proof.Machine

@[simp] theorem respond_hash (r : Rsp) (s : State) : (respond r s).hash = s.hash := rfl
@[simp] theorem respond_buf (r : Rsp) (s : State) : (respond r s).buf = s.buf := rfl
@[simp] theorem respond_fill (r : Rsp) (s : State) : (respond r s).fill = s.fill := rfl
@[simp] theorem respond_cnt (r : Rsp) (s : State) : (respond r s).cnt = s.cnt := rfl
@[simp] theorem respond_phase (r : Rsp) (s : State) : (respond r s).phase = s.phase := rfl
@[simp] theorem respond_err (r : Rsp) (s : State) : (respond r s).err = s.err := rfl
@[simp] theorem respond_scratch (r : Rsp) (s : State) : (respond r s).scratch = s.scratch := rfl
@[simp] theorem respond_events (r : Rsp) (s : State) : (respond r s).events = s.events := rfl
@[simp] theorem respond_responses (r : Rsp) (s : State) : (respond r s).responses = s.responses ++ [r] := rfl
@[simp] theorem respond_draws (r : Rsp) (s : State) : (respond r s).draws = s.draws := rfl

@[simp] theorem emptyBuffer_hash (s : State) : (emptyBuffer s).hash = s.hash := rfl
@[simp] theorem emptyBuffer_buf (s : State) : (emptyBuffer s).buf = s.buf := rfl
@[simp] theorem emptyBuffer_fill (s : State) : (emptyBuffer s).fill = 0 := rfl
@[simp] theorem emptyBuffer_cnt (s : State) : (emptyBuffer s).cnt = s.cnt := rfl
@[simp] theorem emptyBuffer_phase (s : State) : (emptyBuffer s).phase = s.phase := rfl
@[simp] theorem emptyBuffer_err (s : State) : (emptyBuffer s).err = s.err := rfl
@[simp] theorem emptyBuffer_scratch (s : State) : (emptyBuffer s).scratch = s.scratch := rfl
@[simp] theorem emptyBuffer_events (s : State) : (emptyBuffer s).events = s.events := rfl
@[simp] theorem emptyBuffer_responses (s : State) : (emptyBuffer s).responses = s.responses := rfl
@[simp] theorem emptyBuffer_draws (s : State) : (emptyBuffer s).draws = s.draws := rfl

@[simp] theorem putByte_hash (b : Byte) (s : State) : (putByte b s).hash = s.hash := rfl
@[simp] theorem putByte_buf (b : Byte) (s : State) : (putByte b s).buf = memWrite s.buf s.fill.val [b] := rfl
@[simp] theorem putByte_fill (b : Byte) (s : State) : (putByte b s).fill = nextFill s.fill := rfl
@[simp] theorem putByte_cnt (b : Byte) (s : State) : (putByte b s).cnt = s.cnt := rfl
@[simp] theorem putByte_phase (b : Byte) (s : State) : (putByte b s).phase = s.phase := rfl
@[simp] theorem putByte_err (b : Byte) (s : State) : (putByte b s).err = s.err := rfl
@[simp] theorem putByte_scratch (b : Byte) (s : State) : (putByte b s).scratch = s.scratch := rfl
@[simp] theorem putByte_events (b : Byte) (s : State) : (putByte b s).events = s.events := rfl
@[simp] theorem putByte_responses (b : Byte) (s : State) : (putByte b s).responses = s.responses := rfl
@[simp] theorem putByte_draws (b : Byte) (s : State) : (putByte b s).draws = s.draws := rfl

@[simp] theorem putLength_hash (len : Word64) (s : State) : (putLength len s).hash = s.hash := rfl
@[simp] theorem putLength_buf (len : Word64) (s : State) : (putLength len s).buf = memWrite s.buf Config.padLimit (bytesBe64 len).toList := rfl
@[simp] theorem putLength_fill (len : Word64) (s : State) : (putLength len s).fill = 64 := rfl
@[simp] theorem putLength_cnt (len : Word64) (s : State) : (putLength len s).cnt = s.cnt := rfl
@[simp] theorem putLength_phase (len : Word64) (s : State) : (putLength len s).phase = s.phase := rfl
@[simp] theorem putLength_err (len : Word64) (s : State) : (putLength len s).err = s.err := rfl
@[simp] theorem putLength_scratch (len : Word64) (s : State) : (putLength len s).scratch = s.scratch := rfl
@[simp] theorem putLength_events (len : Word64) (s : State) : (putLength len s).events = s.events := rfl
@[simp] theorem putLength_responses (len : Word64) (s : State) : (putLength len s).responses = s.responses := rfl
@[simp] theorem putLength_draws (len : Word64) (s : State) : (putLength len s).draws = s.draws := rfl

@[simp] theorem compressBuffer_buf (s : State) : (compressBuffer s).buf = s.buf := rfl
@[simp] theorem compressBuffer_fill (s : State) : (compressBuffer s).fill = s.fill := rfl
@[simp] theorem compressBuffer_cnt (s : State) : (compressBuffer s).cnt = s.cnt := rfl
@[simp] theorem compressBuffer_phase (s : State) : (compressBuffer s).phase = s.phase := rfl
@[simp] theorem compressBuffer_err (s : State) : (compressBuffer s).err = s.err := rfl
@[simp] theorem compressBuffer_scratch (s : State) : (compressBuffer s).scratch = Scratch.free s.draws := rfl
@[simp] theorem compressBuffer_events (s : State) : (compressBuffer s).events = s.events := rfl
@[simp] theorem compressBuffer_responses (s : State) : (compressBuffer s).responses = s.responses := rfl
@[simp] theorem compressBuffer_draws (s : State) : (compressBuffer s).draws = s.draws + 1 := rfl

@[simp] theorem foldBlock_hash (s : State) : (foldBlock s).hash = (compressBuffer s).hash := rfl
@[simp] theorem foldBlock_buf (s : State) : (foldBlock s).buf = s.buf := rfl
@[simp] theorem foldBlock_fill (s : State) : (foldBlock s).fill = 0 := rfl
@[simp] theorem foldBlock_cnt (s : State) : (foldBlock s).cnt = s.cnt := rfl
@[simp] theorem foldBlock_phase (s : State) : (foldBlock s).phase = s.phase := rfl
@[simp] theorem foldBlock_err (s : State) : (foldBlock s).err = s.err := rfl
@[simp] theorem foldBlock_scratch (s : State) : (foldBlock s).scratch = Scratch.free s.draws := rfl
@[simp] theorem foldBlock_events (s : State) : (foldBlock s).events = s.events := rfl
@[simp] theorem foldBlock_responses (s : State) : (foldBlock s).responses = s.responses := rfl
@[simp] theorem foldBlock_draws (s : State) : (foldBlock s).draws = s.draws + 1 := rfl

@[simp] theorem initContext_hash (s : State) : (initContext s).hash = IV := rfl
@[simp] theorem initContext_buf (s : State) : (initContext s).buf = s.buf := rfl
@[simp] theorem initContext_fill (s : State) : (initContext s).fill = 0 := rfl
@[simp] theorem initContext_cnt (s : State) : (initContext s).cnt = 0 := rfl
@[simp] theorem initContext_phase (s : State) : (initContext s).phase = .active := rfl
@[simp] theorem initContext_err (s : State) : (initContext s).err = false := rfl
@[simp] theorem initContext_scratch (s : State) : (initContext s).scratch = s.scratch := rfl
@[simp] theorem initContext_events (s : State) : (initContext s).events = s.events := rfl
@[simp] theorem initContext_responses (s : State) : (initContext s).responses = s.responses := rfl
@[simp] theorem initContext_draws (s : State) : (initContext s).draws = s.draws := rfl

@[simp] theorem resetEngine_hash (s : State) : (resetEngine s).hash = IV := rfl
@[simp] theorem resetEngine_buf (s : State) : (resetEngine s).buf = State.reset.buf := rfl
@[simp] theorem resetEngine_fill (s : State) : (resetEngine s).fill = 0 := rfl
@[simp] theorem resetEngine_cnt (s : State) : (resetEngine s).cnt = 0 := rfl
@[simp] theorem resetEngine_phase (s : State) : (resetEngine s).phase = .active := rfl
@[simp] theorem resetEngine_err (s : State) : (resetEngine s).err = false := rfl
@[simp] theorem resetEngine_scratch (s : State) : (resetEngine s).scratch = Scratch.reset := rfl
@[simp] theorem resetEngine_events (s : State) : (resetEngine s).events = s.events := rfl
@[simp] theorem resetEngine_responses (s : State) : (resetEngine s).responses = s.responses := rfl
@[simp] theorem resetEngine_draws (s : State) : (resetEngine s).draws = s.draws := rfl

@[simp] theorem present_hash (e : HostEvent) (s : State) : (present e s).hash = s.hash := rfl
@[simp] theorem present_buf (e : HostEvent) (s : State) : (present e s).buf = s.buf := rfl
@[simp] theorem present_fill (e : HostEvent) (s : State) : (present e s).fill = s.fill := rfl
@[simp] theorem present_cnt (e : HostEvent) (s : State) : (present e s).cnt = s.cnt := rfl
@[simp] theorem present_phase (e : HostEvent) (s : State) : (present e s).phase = s.phase := rfl
@[simp] theorem present_err (e : HostEvent) (s : State) : (present e s).err = s.err := rfl
@[simp] theorem present_scratch (e : HostEvent) (s : State) : (present e s).scratch = s.scratch := rfl
@[simp] theorem present_events (e : HostEvent) (s : State) : (present e s).events = e :: s.events := rfl
@[simp] theorem present_responses (e : HostEvent) (s : State) : (present e s).responses = s.responses := rfl
@[simp] theorem present_draws (e : HostEvent) (s : State) : (present e s).draws = s.draws := rfl

/-! FINAL's last assignments, over the state the padding leaves. -/

@[simp] theorem finish_hash (s : State) : (finish s).hash = (padAndCompress s).hash := by
  simp only [finish, respond_hash]
@[simp] theorem finish_buf (s : State) : (finish s).buf = (padAndCompress s).buf := by
  simp only [finish, respond_buf]
@[simp] theorem finish_fill (s : State) : (finish s).fill = (padAndCompress s).fill := by
  simp only [finish, respond_fill]
@[simp] theorem finish_cnt (s : State) : (finish s).cnt = (padAndCompress s).cnt := by
  simp only [finish, respond_cnt]
@[simp] theorem finish_err (s : State) : (finish s).err = (padAndCompress s).err := by
  simp only [finish, respond_err]
@[simp] theorem finish_scratch (s : State) : (finish s).scratch = (padAndCompress s).scratch := by
  simp only [finish, respond_scratch]
@[simp] theorem finish_events (s : State) : (finish s).events = (padAndCompress s).events := by
  simp only [finish, respond_events]
@[simp] theorem finish_draws (s : State) : (finish s).draws = (padAndCompress s).draws := by
  simp only [finish, respond_draws]
@[simp] theorem finish_phase (s : State) : (finish s).phase = .done := by
  simp only [finish, respond_phase]
@[simp] theorem finish_responses (s : State) : (finish s).responses =
    (padAndCompress s).responses ++ [.digest (serialise (padAndCompress s).hash)] := by
  simp only [finish, respond_responses]

end Sys2Proof.Machine
end

