-- ==== Sys2Proof/Laws/Memory.lean ====
section
/-! SUPPORT. The pending buffer: writing at the cursor, and what the padding's loop does. BUF is a fixed array of
64 bytes, so two equal buffers are equal data whatever was written to them (notes/assumptions/1). -/

namespace Sys2Proof.Machine

@[simp] theorem memWrite_nil (buf : Block) (addr : Nat) : memWrite buf addr [] = buf := rfl

theorem memWrite_cons (buf : Block) (addr : Nat) (b : Byte) (bs : List Byte) :
    memWrite buf addr (b :: bs) = memWrite (if h : addr < 64 then buf.set addr b h else buf) (addr + 1) bs := rfl

/-- Inside the buffer a write of one byte is that byte set. -/
theorem memWrite_singleton (buf : Block) (addr : Nat) (b : Byte) (h : addr < 64) :
    memWrite buf addr [b] = buf.set addr b := by
  simp [memWrite, h]

/-- A write of several bytes is a write of the first ones, then of the rest behind them. -/
theorem memWrite_append (buf : Block) (addr : Nat) (bs cs : List Byte) :
    memWrite buf addr (bs ++ cs) = memWrite (memWrite buf addr bs) (addr + bs.length) cs := by
  induction bs generalizing buf addr with
  | nil => simp
  | cons b bs ih => simp [memWrite_cons, ih, Nat.add_assoc, Nat.add_comm 1]

/-- Below 64 the cursor moves by one. -/
theorem nextFill_val (fill : Fin 65) (h : fill.val < 64) : (nextFill fill).val = fill.val + 1 := by
  simp [nextFill, h]

theorem residualBytes_length (s : State) : (residualBytes s).length = s.fill.val := by
  have := s.fill.isLt
  simp [residualBytes]
  omega

@[simp] theorem residualBytes_of_fill_zero (s : State) (h : s.fill = 0) : residualBytes s = [] := by
  simp [residualBytes, h]

/-- The zero bytes change BUF and FILL only. -/
theorem putZeros_frame (n : Nat) (s : State) :
    ∃ buf fill, putZeros n s = { s with buf := buf, fill := fill } := by
  induction n generalizing s with
  | zero => exact ⟨s.buf, s.fill, rfl⟩
  | succ n ih =>
    obtain ⟨buf, fill, h⟩ := ih (putByte 0x00 s)
    exact ⟨buf, fill, h⟩

/-- As long as they fit, `n` zero bytes are one write of `n` zeros at the cursor, which moves by `n`. -/
theorem putZeros_spec (n : Nat) (s : State) (h : s.fill.val + n ≤ 64) :
    putZeros n s =
      { s with buf := memWrite s.buf s.fill.val (zeros n), fill := ⟨s.fill.val + n, by omega⟩ } := by
  induction n generalizing s with
  | zero => rfl
  | succ n ih =>
    have hn := nextFill_val s.fill (by omega)
    rw [putZeros, ih _ (by simp [hn]; omega)]
    simp [putByte, hn, zeros, List.replicate_succ, memWrite_cons, Nat.add_assoc, Nat.add_comm 1]

/-- The loop ends with the cursor at its limit, when it was not past it. -/
theorem zeroFillTo_spec (limit : Nat) (s : State) (h : s.fill.val ≤ limit) (hl : limit ≤ 64) :
    zeroFillTo limit s =
      { s with buf := memWrite s.buf s.fill.val (zeros (limit - s.fill.val)), fill := ⟨limit, by omega⟩ } := by
  rw [zeroFillTo, putZeros_spec _ _ (by omega)]
  simp [Nat.add_sub_cancel' h]

end Sys2Proof.Machine
end

