-- ==== Sys2Proof/Laws/Hasher.lean ====
section
/-! SUPPORT. What the internal operations can do, said once: ABSORB, the body of UPDATE, the padding, and one step
of the machine. -/

namespace Sys2Proof.Machine

/-- The one thing a refusal does (R105). -/
theorem raiseMisuse_eq (s : State) : raiseMisuse s =
    .next { s with err := true, responses := s.responses ++ [.error .misuseAfterFinal] } := rfl

theorem takeEvent_of_nil (s : State) (h : s.events = []) : takeEvent s = none := by
  simp [takeEvent, h]

theorem takeEvent_of_cons (s : State) (e : HostEvent) (rest : List HostEvent) (h : s.events = e :: rest) :
    takeEvent s = some (e, { s with events := rest }) := by
  simp [takeEvent, h]

/-- A round constant is its word of the table's row (R28). -/
theorem K_eq_row (j : Nat) (hj : j < 64) :
    K[j] = roundConstantRows[j / 8].extractLsb' (32 * (7 - j % 8)) 32 := by
  simp [K]

/-- COMPRESS writes H, the working storage and the count of compressions (R95). -/
theorem compressBuffer_eq (s : State) : compressBuffer s =
    { s with
      hash := addVars s.hash (Scratch.runRounds Config.rounds ((s.scratch.sched s.buf).load s.hash)).vars
      scratch := Scratch.free s.draws
      draws := s.draws + 1 } := rfl

/-- One more round can as well be the last. -/
theorem runRounds_succ (n : Nat) (x : Scratch) :
    Scratch.runRounds (n + 1) x = (Scratch.runRounds n x).round := by
  induction n generalizing x with
  | zero => rfl
  | succ n ih => rw [Scratch.runRounds, ih, ← Scratch.runRounds]

/-- The two cases of ABSORB (R67): the byte does not fill the buffer, or it does and the block is folded. -/
theorem absorb_cases (b : Byte) (s : State) :
    absorb b s = { putByte b s with cnt := s.cnt + 1 } ∧ (nextFill s.fill).val ≠ 64 ∨
    absorb b s = foldBlock { putByte b s with cnt := s.cnt + 1 } ∧ (nextFill s.fill).val = 64 := by
  by_cases h : (nextFill s.fill).val = 64
  · exact .inr ⟨by simp [absorb, h], h⟩
  · exact .inl ⟨by simp [absorb, h], h⟩

@[simp] theorem absorbAll_nil (s : State) : absorbAll [] s = s := rfl

theorem absorbAll_cons (b : Byte) (data : List Byte) (s : State) :
    absorbAll (b :: data) s = absorbAll data (absorb b s) := rfl

/-- UPDATE is a left fold of ABSORB over its payload (R77). -/
theorem absorbAll_append (a b : List Byte) (s : State) :
    absorbAll (a ++ b) s = absorbAll b (absorbAll a s) := by
  simp [absorbAll, List.foldl_append]

/-- What ABSORB never touches: the flags, the port and the responses. -/
theorem absorb_frame (b : Byte) (s : State) :
    (absorb b s).phase = s.phase ∧ (absorb b s).err = s.err ∧ (absorb b s).events = s.events ∧
      (absorb b s).responses = s.responses := by
  obtain ⟨h, -⟩ | ⟨h, -⟩ := absorb_cases b s <;> rw [h] <;> exact ⟨rfl, rfl, rfl, rfl⟩

theorem absorbAll_frame (data : List Byte) (s : State) :
    (absorbAll data s).phase = s.phase ∧ (absorbAll data s).err = s.err ∧
      (absorbAll data s).events = s.events ∧ (absorbAll data s).responses = s.responses := by
  induction data generalizing s with
  | nil => exact ⟨rfl, rfl, rfl, rfl⟩
  | cons b data ih =>
    obtain ⟨h1, h2, h3, h4⟩ := absorb_frame b s
    obtain ⟨g1, g2, g3, g4⟩ := ih (absorb b s)
    exact ⟨g1.trans h1, g2.trans h2, g3.trans h3, g4.trans h4⟩

/-- What the padding's loop never touches. -/
theorem zeroFillTo_frame (limit : Nat) (s : State) :
    (zeroFillTo limit s).cnt = s.cnt ∧ (zeroFillTo limit s).phase = s.phase ∧ (zeroFillTo limit s).err = s.err ∧
      (zeroFillTo limit s).events = s.events ∧ (zeroFillTo limit s).responses = s.responses := by
  obtain ⟨buf, fill, h⟩ := putZeros_frame (limit - s.fill.val) s
  rw [zeroFillTo, h]
  exact ⟨rfl, rfl, rfl, rfl, rfl⟩

/-- What the spill never touches. -/
theorem spillIfNoRoom_frame (s : State) :
    (spillIfNoRoom s).cnt = s.cnt ∧ (spillIfNoRoom s).phase = s.phase ∧ (spillIfNoRoom s).err = s.err ∧
      (spillIfNoRoom s).events = s.events ∧ (spillIfNoRoom s).responses = s.responses := by
  unfold spillIfNoRoom
  split
  · simpa only [foldBlock_cnt, foldBlock_phase, foldBlock_err, foldBlock_events, foldBlock_responses] using
      zeroFillTo_frame Config.blockBytes s
  · exact ⟨rfl, rfl, rfl, rfl, rfl⟩

/-- What the padding never touches; it leaves the buffer empty. -/
theorem padAndCompress_frame (s : State) :
    (padAndCompress s).cnt = s.cnt ∧ (padAndCompress s).phase = s.phase ∧ (padAndCompress s).err = s.err ∧
      (padAndCompress s).events = s.events ∧ (padAndCompress s).responses = s.responses ∧
      (padAndCompress s).fill = 0 := by
  obtain ⟨g1, g2, g3, g4, g5⟩ := spillIfNoRoom_frame (putByte Config.padMark s)
  obtain ⟨h1, h2, h3, h4, h5⟩ := zeroFillTo_frame Config.padLimit (spillIfNoRoom (putByte Config.padMark s))
  simp only [padAndCompress, foldBlock_cnt, foldBlock_phase, foldBlock_err, foldBlock_events, foldBlock_responses,
    foldBlock_fill, putLength_cnt, putLength_phase, putLength_err, putLength_events, putLength_responses]
  exact ⟨h1.trans g1, h2.trans g2, h3.trans g3, h4.trans g4, h5.trans g5, trivial⟩

/-- Everything a step can do when it answers a next state: wait, run a command, or reset. -/
theorem step_cases {s t : State} (h : step s = .next t) :
    (s.events = [] ∧ t = s) ∨
    (∃ tx rest i, s.events = .command tx :: rest ∧ decode tx = .ok i ∧
      exec i { s with events := rest } = .next t) ∨
    (∃ e rest, s.events = e :: rest ∧ (e = .reset ∨ ∃ tx, e = .resetDuring tx) ∧
      t = resetEngine { s with events := rest }) := by
  match he : s.events with
  | [] => simp [step, takeEvent, he] at h; exact .inl ⟨rfl, h.symm⟩
  | .command tx :: rest =>
    match hd : decode tx with
    | .ok i => simp [step, takeEvent, he, hd] at h; exact .inr (.inl ⟨tx, rest, i, rfl, hd, h⟩)
    | .error e => simp [step, takeEvent, he, hd] at h
  | .reset :: rest =>
    simp [step, takeEvent, he] at h
    exact .inr (.inr ⟨.reset, rest, rfl, .inl rfl, h.symm⟩)
  | .resetDuring tx :: rest =>
    simp [step, takeEvent, he] at h
    exact .inr (.inr ⟨.resetDuring tx, rest, rfl, .inr ⟨tx, rfl⟩, h.symm⟩)

end Sys2Proof.Machine
end

