-- ==== Sys2Proof/Laws/Blocks.lean ====
section
/-! SUPPORT. Blocks and byte sequences: the buffer seen as its 64 bytes in order, and cutting a sequence into
blocks. -/

namespace Sys2Proof.Machine

/-- The block that a block's own bytes are. -/
theorem blockOf_toList (b : Block) : blockOf b.toList = b := by
  apply Vector.ext
  intro i hi
  simp [blockOf, List.getD_eq_getElem?_getD]

/-- A write that fits replaces the bytes at `addr` and leaves those before and behind. -/
theorem memWrite_toList (buf : Block) (addr : Nat) (bs : List Byte) (h : addr + bs.length ≤ 64) :
    (memWrite buf addr bs).toList = buf.toList.take addr ++ bs ++ buf.toList.drop (addr + bs.length) := by
  induction bs generalizing buf addr with
  | nil => simp
  | cons b bs ih =>
    simp only [List.length_cons] at h
    have ha : addr < buf.toList.length := by simp; omega
    rw [memWrite_cons, ih _ _ (by omega), dif_pos (by omega), Vector.toList_set, List.length_cons,
      show addr + 1 + bs.length = addr + (bs.length + 1) by omega, List.drop_set_of_lt (by omega),
      List.take_add_one, List.take_set_of_le (by omega), List.getElem?_set_self ha]
    simp

theorem takeBlocks_length (n : Nat) (bytes : List Byte) : (takeBlocks n bytes).length = n := by
  induction n generalizing bytes with
  | zero => rfl
  | succ n ih => simp [takeBlocks, ih]

/-- Blocks of whole blocks followed by more. -/
theorem takeBlocks_append (n m : Nat) (xs ys : List Byte) (h : xs.length = 64 * n) :
    takeBlocks (n + m) (xs ++ ys) = takeBlocks n xs ++ takeBlocks m ys := by
  induction n generalizing xs with
  | zero =>
    obtain rfl : xs = [] := List.length_eq_zero_iff.mp (by omega)
    simp [takeBlocks]
  | succ n ih =>
    rw [show n + 1 + m = (n + m) + 1 by omega, takeBlocks, takeBlocks,
      List.take_append_of_le_length (by omega), List.drop_append_of_le_length (by omega), ih _ (by simp; omega)]
    rfl

/-- The first `n` blocks need only the first `64 n` bytes. -/
theorem takeBlocks_take (n : Nat) (bytes : List Byte) :
    takeBlocks n (bytes.take (64 * n)) = takeBlocks n bytes := by
  induction n generalizing bytes with
  | zero => rfl
  | succ n ih =>
    rw [takeBlocks, takeBlocks, List.take_take, List.drop_take,
      show 64 * (n + 1) - 64 = 64 * n by omega, show min 64 (64 * (n + 1)) = 64 by omega, ih]

end Sys2Proof.Machine
end

