-- ==== Sys2Proof/Laws/PerInstr.lean ====
section
/-! SUPPORT. The statements made once per command, as syntax. -/

namespace Sys2Proof.Laws.Encoding

/-- What a command encodes to offers a payload only where R50 has one. -/
def Statement (i : Instr) : Prop := (encode i).wellFormed = true

theorem init : Statement .init := rfl

theorem update (data : List Byte) : Statement (.update data) := rfl

theorem final : Statement .final := rfl

theorem hash (data : List Byte) : Statement (.hash data) := rfl

end Sys2Proof.Laws.Encoding
end

