-- ==== Sys2Proof/Laws/Runs.lean ====
section
/-! SUPPORT. Runs of commands: how they begin, how they join. -/

namespace Sys2Proof.Safety

open Sys2Proof.Machine

@[simp] theorem runWith_nil (f : Instr → State → Host.Outcome State Fault Refusal) (s : State) :
    runWith f [] s = .next s := rfl

/-- A run whose first command answers a next state goes on from it. -/
theorem runWith_cons_next {f : Instr → State → Host.Outcome State Fault Refusal} {i : Instr} {s t : State}
    (is : List Instr) (h : f i s = .next t) : runWith f (i :: is) s = runWith f is t := by
  simp [runWith, h]

/-- Two runs, one after the other, are one run. -/
theorem runWith_append {f : Instr → State → Host.Outcome State Fault Refusal} {is js : List Instr} {s t : State}
    (h : runWith f is s = .next t) : runWith f (is ++ js) s = runWith f js t := by
  induction is generalizing s with
  | nil => simp at h; simp [h]
  | cons i is ih =>
    cases hf : f i s with
    | next u =>
      rw [runWith_cons_next _ hf] at h
      rw [List.cons_append, runWith_cons_next _ hf, ih h]
    | fault r => simp [runWith, hf] at h
    | refused r => simp [runWith, hf] at h

end Sys2Proof.Safety
end

