-- ==== Sys2Proof/Tests/Slice0.lean ====
section
/-! SUPPORT. Small checks against numbers the spec prints (95_test_vectors.md and the rules' own examples), one
command word of each command written out from the encoding table, the ill-formed transactions, and, for every
statement with hypotheses, a concrete input that meets them all. -/

namespace Sys2Proof.Tests

open Sys2Proof.Machine Sys2Proof.Safety

/-- The next state of an outcome; reset where there is none. -/
def after (o : Host.Outcome State Fault Refusal) : State :=
  match o with
  | .next t => t
  | _ => State.reset

/-- "abc" (95 §1, S2). -/
def abc : List Byte := [0x61, 0x62, 0x63]

/-- A message in progress: `fill` bytes 0x61 absorbed, set by hand in the register (95 §2.8). -/
def filled (fill : Fin 65) : State :=
  { State.reset with fill := fill, buf := Vector.replicate 64 0x61, cnt := BitVec.ofNat 64 fill.val }

/-- After a FINAL, with a digest of all-zero words in H. -/
def finished : State :=
  { State.reset with phase := .done, hash := Vector.replicate 8 0 }

/-- A refused state: ERR set, DONE. -/
def refusedOnce : State := { finished with err := true }

/-- The same, with the refusal answered. -/
def refusedAnswered : State := { refusedOnce with responses := [.error .misuseAfterFinal] }

/-! ### Encodings (R50, R53, R58) -/

theorem test_decode_init : decode ⟨0b00#2, []⟩ = .ok .init := by decide
theorem test_decode_update : decode ⟨0b01#2, [0x61, 0x62, 0x63]⟩ = .ok (.update [0x61, 0x62, 0x63]) := by decide
theorem test_decode_final : decode ⟨0b10#2, []⟩ = .ok .final := by decide
theorem test_decode_hash : decode ⟨0b11#2, [0x00]⟩ = .ok (.hash [0x00]) := by decide
theorem test_table_words :
    decodeTableWord 8 0 = some .init ∧ decodeTableWord 8 1 = some (.update []) ∧
      decodeTableWord 8 2 = some .final ∧ decodeTableWord 8 3 = some (.hash []) := by decide
/-- R51: the other bits of a wider word are not the engine's. -/
theorem test_wider_word : decodeTableWord 8 0b10101110 = some .final := by decide
theorem test_init_with_payload_ill_formed :
    (⟨0b00#2, [0x61]⟩ : Transaction).wellFormed = false ∧ decode ⟨0b00#2, [0x61]⟩ = .error .payloadOnInit := by
  decide
theorem test_final_with_payload_ill_formed :
    (⟨0b10#2, [0x61]⟩ : Transaction).wellFormed = false ∧ decode ⟨0b10#2, [0x61]⟩ = .error .payloadOnFinal := by
  decide
theorem test_update_with_payload_well_formed : (⟨0b01#2, [0x61]⟩ : Transaction).wellFormed = true := by decide
/-- P3, the wire form of a refusal: st = 10 followed by the cause byte 01. -/
theorem test_error_response_bytes : encodeRsp (.error .misuseAfterFinal) = ⟨0b10#2, [0x01]⟩ := by decide
theorem test_status_3_never : decodeRsp ⟨0b11#2, []⟩ = .error .neverProduced := by decide
theorem test_unassigned_cause : decodeRsp ⟨0b10#2, [0x02]⟩ = .error .unassignedCause := by decide

/-! ### Operators and functions (95 §2.1, §2.2) -/

theorem test_rotr_shr : rotr32 0x12345678 7 = 0xf02468ac ∧ shr32 0x80000001 3 = 0x10000000 := by decide
theorem test_bit_length : bitLength 0x0000000100000001 = 0x0000000800000008 ∧ bitLength 0x2000000000000003 = 0x18 := by
  decide
theorem test_be32 : be32 0x61 0x62 0x63 0x80 = 0x61626380 := by decide
theorem test_bytes : (bytesBe32 0xba7816bf).toList = [0xba, 0x78, 0x16, 0xbf] ∧
    (bytesBe64 0x0000000800000008).toList = [0, 0, 0, 8, 0, 0, 0, 8] := by decide
theorem test_small_sigmas : sigma0 0x12345678 = 0xe7fce6ee ∧ sigma1 0x12345678 = 0xa1f78649 := by decide
theorem test_capital_sigmas : Sigma0 0x12345678 = 0x66146474 ∧ Sigma1 0x12345678 = 0x3561abda := by decide
theorem test_ch_maj : Ch 0xf0f0f0f0 0xaaaaaaaa 0x55555555 = 0xa5a5a5a5 ∧
    Maj 0x00000000 0x12345678 0x9abcdef0 = 0x12345670 := by decide

/-! ### Schedule, round, padding (95 §1.1, §2.4, §2.6) -/

/-- The one block of "abc" (95 §1.1). -/
def abcBlock : Block := blockOf (abc ++ [0x80] ++ zeros 59 ++ [0x18])

/-- R28: the ends of the first, the second and the last row, as the rule prints them. -/
theorem test_round_constants : K[0] = 0x428a2f98 ∧ K[7] = 0xab1c5ed5 ∧ K[8] = 0xd807aa98 ∧ K[56] = 0x748f82ee ∧
    K[63] = 0xc67178f2 := by decide +kernel
theorem test_schedule_words :
    (sched abcBlock)[15] = 0x00000018 ∧ (sched abcBlock)[17] = 0x000f0000 ∧ (sched abcBlock)[18] = 0x7da86405 := by
  decide +kernel
/-- R97, its example: round 0 from IV with W[0] = 61626380. -/
theorem test_round_0 : roundVars 0x428a2f98 0x61626380 (loadVars IV) =
    ⟨0x5d6aebcd, 0x6a09e667, 0xbb67ae85, 0x3c6ef372, 0xfa2a4622, 0x510e527f, 0x9b05688c, 0x1f83d9ab⟩ := by
  decide +kernel
/-- 95 §2.6, r = 55: no zero byte. -/
theorem test_pad_55 : pad (List.replicate 55 0x61) 0x1b8 =
    [List.replicate 55 0x61 ++ [0x80, 0, 0, 0, 0, 0, 0, 0x01, 0xb8]] := by decide +kernel
/-- 95 §2.6, r = 56: the smallest spill. -/
theorem test_pad_56 : pad (List.replicate 56 0x61) 0x1c0 =
    [List.replicate 56 0x61 ++ [0x80] ++ List.replicate 7 0,
     List.replicate 56 0 ++ [0, 0, 0, 0, 0, 0, 0x01, 0xc0]] := by decide +kernel

/-! ### Commands -/

/-- R66, its example. -/
theorem test_init : (after (exec .init refusedOnce)).responses = [.ack] ∧
    (after (exec .init refusedOnce)).hash[7] = 0x5be0cd19 := by decide +kernel
/-- P1, step 2. -/
theorem test_update_abc : (after (exec (.update abc) State.reset)).cnt = 3 ∧
    (after (exec (.update abc) State.reset)).fill = 3 ∧
    residualBytes (after (exec (.update abc) State.reset)) = [0x61, 0x62, 0x63] := by decide +kernel
/-- 95 §2.8: ABSORB at the counter's edge. -/
theorem test_update_counter_wraps :
    (after (exec (.update [0x61]) { filled 63 with cnt := 0xffffffffffffffff })).cnt = 0 ∧
      (after (exec (.update [0x61]) { filled 63 with cnt := 0xffffffffffffffff })).fill = 0 := by decide +kernel
/-- S1, with P1's form: RESET, FINAL. -/
theorem test_final_empty : (after (exec .final State.reset)).hash =
    #v[0xe3b0c442, 0x98fc1c14, 0x9afbf4c8, 0x996fb924, 0x27ae41e4, 0x649b934c, 0xa495991b, 0x7852b855] := by
  decide +kernel
/-- 95 §2.7, n = 56: two final blocks; the first digest word. -/
theorem test_final_spill : (after (exec .final (filled 56))).hash[0] = 0xb35439a4 := by decide +kernel
/-- S2. -/
theorem test_hash_abc : (after (exec (.hash abc) refusedOnce)).hash =
    #v[0xba7816bf, 0x8f01cfea, 0x414140de, 0x5dae2223, 0xb00361a3, 0x96177a9c, 0xb410ff61, 0xf20015ad] := by
  decide +kernel
/-- P3, steps 2 and 3: refused, answered, ERR set, nothing absorbed. -/
theorem test_misuse_refused : (after (exec (.update abc) finished)).responses = [.error .misuseAfterFinal] ∧
    (after (exec (.update abc) finished)).err = true ∧ (after (exec (.update abc) finished)).cnt = 0 ∧
    (after (exec .final finished)).responses = [.error .misuseAfterFinal] ∧
    (after (exec .final finished)).phase = .done := by decide +kernel
/-- R23: no digest is shown while a message is in progress. -/
theorem test_view_hidden : digestView (filled 3) = none := by decide

/-! ### Reset, the port, scripts -/

/-- R117: a command cut short by reset leaves nothing, not even a response. -/
theorem test_reset_during :
    (after (step { refusedOnce with events := [.resetDuring ⟨0b11#2, abc⟩] })).err = false ∧
      (after (step { refusedOnce with events := [.resetDuring ⟨0b11#2, abc⟩] })).responses = [] := by decide +kernel
theorem test_step_runs_word : (after (step (State.reset.withFetchWord 8 1))).responses = [.ack] ∧
    (after (step (State.reset.withFetchWord 8 1))).events = [] := by decide +kernel
/-- R63, its own forms of a payload: a run of digit pairs, a repeated byte, a comment. -/
theorem test_script_parse :
    Script.parse ['U', 'P', 'D', 'A', 'T', 'E', ' ', '6', '1', '6', '2', ' ', '6', '1', ' ', 'x', ' ', '1', '0', ';', 'c',
      '\n', 'N', 'O', 'P'] =
      some [.update [.hex [0x61, 0x62], .repeated 0x61 10], .nop] := by decide +kernel
/-- R63: an odd number of digits is no run of pairs, and a payload is never left out. -/
theorem test_script_refuses :
    Script.parse ['H', 'A', 'S', 'H', ' ', '6'] = none ∧ Script.parse ['H', 'A', 'S', 'H'] = none := by decide +kernel

/-! ### Inputs that meet the hypotheses of the statements -/

theorem witness_DecodeAndEncodeAgree : decode ⟨0b11#2, abc⟩ = .ok (.hash abc) ∧
    (⟨0b10#2, []⟩ : Transaction).wellFormed = true ∧ (⟨0b10#2, abc⟩ : Transaction).wellFormed = false := by decide
theorem witness_ResponsesReadBack : decodeRsp ⟨0b10#2, [0x01]⟩ = .ok (.error .misuseAfterFinal) ∧
    decodeRsp ⟨0b01#2, zeros 32⟩ = .ok (.digest (Vector.replicate 32 0)) ∧ (⟨0b11#2, []⟩ : WireRsp).st = 0b11#2 := by
  decide +kernel
theorem witness_WordOperatorsAsDefined : (0 < 1 ∧ 1 < 32) ∧ (0 < 31 ∧ 31 < 32) ∧
    rotr32 0x80000001 31 = 0x00000003 ∧ shr32 0x12345678 31 = 0 := by decide
/-- A bit position at each end; it serves the three statements on the round functions. -/
theorem witness_bit_positions : (0 < 32 ∧ 31 < 32) ∧ (sigma0 0x80000000).getLsbD 31 = false ∧
    (Sigma0 0x00000001).getLsbD 30 = true ∧ (Ch 0x80000000 0xffffffff 0).getLsbD 31 = true := by decide
theorem witness_BufferReadsWhatWasWritten :
    (56 ≤ 63 ∧ 63 < 56 + (zeros 8).length) ∧ (55 < 56 ∨ 56 + (zeros 8).length ≤ 55) ∧
      (memWrite (filled 0).buf 56 (zeros 8))[63] = 0 ∧ (memWrite (filled 0).buf 56 (zeros 8))[55] = 0x61 := by
  decide +kernel
theorem witness_RoundReplacesAllEight : ({ Scratch.reset with j := 63 } : Scratch).j.val < 64 ∧
    ({ Scratch.reset with j := 63 } : Scratch).round.j = 64 := by decide +kernel
/-- Both layouts at their ends: r = 0, 55 and r = 56, 63; the same inputs serve LengthFieldOfLastBlock. -/
theorem witness_PaddingLayouts : (zeros 0).length ≤ 55 ∧ (zeros 55).length ≤ 55 ∧ 56 ≤ (zeros 56).length ∧
    (zeros 56).length ≤ 63 ∧ 56 ≤ (zeros 63).length ∧ (zeros 63).length ≤ 63 := by decide
theorem witness_AbsorbTakesOneByte : (filled 0).fill.val < 63 ∧ (filled 62).fill.val < 63 ∧
    (filled 63).fill.val < 64 ∧ (filled 63).fill.val = 63 := by decide
/-- The accepted forms at the ends of FILL, the empty payload, and the refused form; the same inputs serve
FinalPadsAndAnswersDigest, ResponsesAndPhasesPaired and CompressionsAreCounted. -/
theorem witness_UpdateAbsorbsItsPayload : (filled 0).phase = .active ∧ (filled 0).fill.val < 64 ∧
    (filled 63).phase = .active ∧ (filled 63).fill.val < 64 ∧ finished.phase = .done := by decide
theorem witness_FinalPadsAndAnswersDigest : (filled 55).phase = .active ∧ (filled 55).fill.val ≤ 55 ∧
    (filled 56).phase = .active ∧ ¬(filled 56).fill.val ≤ 55 ∧ (filled 56).fill.val < 64 := by decide
/-- Each command answers a next state where its result is stated. -/
theorem witness_completions : exec .init refusedOnce = .next (after (exec .init refusedOnce)) ∧
    exec (.update abc) (filled 62) = .next (after (exec (.update abc) (filled 62))) ∧
    exec .final (filled 56) = .next (after (exec .final (filled 56))) ∧
    exec (.hash abc) finished = .next (after (exec (.hash abc) finished)) := ⟨rfl, rfl, rfl, rfl⟩
theorem witness_MisuseIsRefusedPrecisely : misuse (.update []) finished = true ∧ misuse .final finished = true ∧
    misuse (.update abc) (filled 3) = false ∧ misuse .init finished = false ∧ misuse (.hash []) finished = false := by
  decide
theorem witness_CompressionsAreCounted : exec .init (filled 3) = .next (after (exec .init (filled 3))) ∧
    exec (.update abc) (filled 3) = .next (after (exec (.update abc) (filled 3))) ∧
    exec .final (filled 63) = .next (after (exec .final (filled 63))) ∧ misuse .final finished = true ∧
    exec .final finished = .next (after (exec .final finished)) := ⟨rfl, rfl, rfl, rfl, rfl⟩
theorem witness_StreamedMessageAnswersSha256 : [abc, [], abc].flatten.length < 2 ^ 61 := by decide
theorem witness_ChunkingDoesNotMatter : (filled 62).phase = .active := by decide
/-- Two states with one context that differ in ERR, in the dead bytes of BUF and in the working storage. -/
def otherDead : State :=
  { filled 3 with
    err := true, buf := (Vector.replicate 64 0x61).set 3 0xff, scratch := { Scratch.reset with t1 := 7, j := 64 } }
theorem witness_DeadStateNeverMatters :
    (filled 3).fill.val < 64 ∧ SameContext (filled 3) otherDead ∧ filled 3 ≠ otherDead :=
  ⟨by decide, ⟨rfl, rfl, rfl, rfl, by decide +kernel⟩, by decide +kernel⟩
theorem witness_Inv : Inv (filled 63) ∧ Inv finished :=
  ⟨⟨by decide, by decide, by decide⟩, ⟨by decide, by decide, by decide⟩⟩
/-- A step of each kind: waiting, a command, a reset. It serves StepKeepsInv, HashStateHasTwoWriters, ErrIsSticky
and DigestViewLastsUntilFreshStart. -/
theorem witness_steps : step (filled 3) = .next (filled 3) ∧
    step (presenting [.update abc] (filled 3)) = .next (after (exec (.update abc) (filled 3))) ∧
    step { filled 3 with events := [.reset] } = .next (resetEngine (filled 3)) := ⟨rfl, rfl, rfl⟩
theorem witness_StepKeepsInv : Inv (presenting [.update abc] (filled 62)) ∧
    step (presenting [.update abc] (filled 62)) = .next (after (exec (.update abc) (filled 62))) :=
  ⟨⟨by decide, by decide, by decide⟩, rfl⟩
theorem witness_ContextHoldsTheMessage :
    Absorbed abc (after (exec (.update abc) State.reset)) ∧ abc.length < 2 ^ 61 :=
  ⟨⟨by decide +kernel, by decide +kernel, by decide +kernel, by decide +kernel, by decide +kernel⟩, by decide⟩
/-- ERR set by a refusal, kept by a second one, cleared by INIT. -/
theorem witness_ErrIsSticky : (after (step (presenting [.final] finished))).err = true ∧ finished.err = false ∧
    (after (step (presenting [.init] refusedOnce))).err = false ∧ refusedOnce.err = true := by decide +kernel
/-- The view lasts through a refused command. -/
theorem witness_DigestViewLastsUntilFreshStart :
    digestView (presenting [.final] finished) = some (serialise (Vector.replicate 8 0)) ∧
    step (presenting [.final] finished) = .next (after (exec .final finished)) ∧
    startsAfresh (.command (encode .final)) = false ∧
    (after (exec .final (filled 3))).responses =
      (filled 3).responses ++ [.digest (serialise (after (exec .final (filled 3))).hash)] :=
  ⟨by decide +kernel, rfl, by decide, rfl⟩
theorem witness_ResetForgetsTheEngine :
    ({ refusedOnce with events := [.reset] } : State).events = [.reset] ∧
    ({ filled 3 with events := [.resetDuring ⟨0b01#2, abc⟩] } : State).events = [.resetDuring ⟨0b01#2, abc⟩] ∧
    refusedOnce.responses = (filled 3).responses ∧ refusedOnce.draws = (filled 3).draws := ⟨rfl, rfl, rfl, rfl⟩
theorem witness_StepRunsTheDecodedCommand :
    (presenting [.update abc] (filled 3)).events = [.command (encode (.update abc))] ∧
    decode (encode (.update abc)) = .ok (.update abc) ∧ decode ⟨0b00#2, abc⟩ = .error .payloadOnInit ∧
    (filled 3).events = [] ∧ decodeTableWord 8 3 = some (.hash []) := by decide +kernel
/-- A run with an ERROR among its responses (FINAL in DONE) and one without. -/
theorem witness_StrictRunsAreRunsWithoutError :
    misuse .final finished = true ∧ runAll [.init, .update abc] finished = runStrict [.init, .update abc] finished ∧
    (after (runAll [.init, .update abc] finished)).responses = [.ack, .ack] ∧
    (after (runAll [.init, .update abc] finished)).err = false ∧
    runStrict [.final, .init] finished = .fault .misuse ∧
    (after (runAll [.final, .init] finished)).responses = [.error .misuseAfterFinal, .ack] :=
  ⟨by decide, rfl, by decide +kernel, by decide +kernel, rfl, by decide +kernel⟩
theorem witness_RepeatedCommandsChangeNothing : misuse (.update abc) finished = true ∧
    exec (.update abc) finished = .next refusedAnswered ∧
    exec (.update abc) refusedAnswered = .next (after (exec (.update abc) refusedAnswered)) :=
  ⟨rfl, rfl, rfl⟩
theorem witness_EnginesAreIndependent : (0 : Fin 2) ≠ 1 ∧
    stepAt 0 #v[presenting [.init] (filled 3), presenting [.final] finished] =
      .next #v[after (exec .init (filled 3)), presenting [.final] finished] ∧
    stepAt 1 #v[presenting [.init] (filled 3), presenting [.final] finished] =
      .next #v[presenting [.init] (filled 3), after (exec .final finished)] := ⟨by decide, rfl, rfl⟩

end Sys2Proof.Tests
end

section
/-! PROOFS. The word operators of 00_scope.md R12: the number each one gives and the bits it gives. -/

namespace Sys2Proof.Machine

@[simp] theorem shr32_toNat (x : Word) (n : Nat) : (shr32 x n).toNat = x.toNat / 2 ^ n := by
  rw [shr32, BitVec.toNat_ushiftRight, Nat.shiftRight_eq_div_pow]

@[simp] theorem shl64_toNat (x : Word64) (n : Nat) : (shl64 x n).toNat = x.toNat * 2 ^ n % 2 ^ 64 := by
  rw [shl64, BitVec.toNat_shiftLeft, Nat.shiftLeft_eq]

@[simp] theorem not32_toNat (x : Word) : (not32 x).toNat = 2 ^ 32 - 1 - x.toNat := BitVec.toNat_not

@[simp] theorem not32_getLsbD (x : Word) (i : Nat) (hi : i < 32) : (not32 x).getLsbD i = !x.getLsbD i := by
  simp [not32, hi]

/-- The bits that leave at the right come back at the left: the two parts of a rotation occupy different bits, so
their `or` is their sum. -/
theorem rotr32_toNat (x : Word) (n : Nat) (hn : n < 32) :
    (rotr32 x n).toNat = x.toNat / 2 ^ n + (x.toNat % 2 ^ n) * 2 ^ (32 - n) := by
  have hsplit : 2 ^ 32 = 2 ^ n * 2 ^ (32 - n) := by rw [← Nat.pow_add, Nat.add_sub_cancel' hn.le]
  have hlow : x.toNat / 2 ^ n < 2 ^ (32 - n) := Nat.div_lt_of_lt_mul (hsplit ▸ x.isLt)
  have hhigh : x.toNat * 2 ^ (32 - n) % 2 ^ 32 = 2 ^ (32 - n) * (x.toNat % 2 ^ n) := by
    rw [hsplit, Nat.mul_mod_mul_right, Nat.mul_comm]
  calc (rotr32 x n).toNat
      = x.toNat / 2 ^ n ||| x.toNat * 2 ^ (32 - n) % 2 ^ 32 := by
        rw [rotr32, BitVec.toNat_rotateRight, Nat.mod_eq_of_lt hn, Nat.shiftRight_eq_div_pow, Nat.shiftLeft_eq]
    _ = 2 ^ (32 - n) * (x.toNat % 2 ^ n) ||| x.toNat / 2 ^ n := by rw [hhigh, Nat.or_comm]
    _ = x.toNat / 2 ^ n + (x.toNat % 2 ^ n) * 2 ^ (32 - n) := by
        rw [← Nat.two_pow_add_eq_or_of_lt hlow, Nat.add_comm, Nat.mul_comm]

/-- The two cases are the bits that only move down and the bits that wrap around. -/
theorem rotr32_getLsbD (x : Word) (n i : Nat) (hn : n < 32) (hi : i < 32) :
    (rotr32 x n).getLsbD i = x.getLsbD ((i + n) % 32) := by
  rw [rotr32, BitVec.getLsbD_rotateRight, Nat.mod_eq_of_lt hn]
  by_cases hwrap : i < 32 - n
  · rw [show (i + n) % 32 = n + i by omega]
    simp [hwrap]
  · rw [show (i + n) % 32 = i - (32 - n) by omega]
    simp [hwrap, hi]

/-- Settles O5: sums and bitwise operators are those of `BitVec`; the shifts and the rotation by their own rules. -/
theorem wordOperatorsAsDefined : Obligations.WordOperatorsAsDefined := by
  refine ⟨fun x y z => ⟨BitVec.toNat_add x y, ?_, BitVec.add_assoc x y z, BitVec.add_comm x y⟩,
    fun x y i hi => ⟨BitVec.getLsbD_xor, BitVec.getLsbD_and, not32_getLsbD x i hi⟩, not32_toNat,
    fun x n _ hn => ⟨shr32_toNat x n, rotr32_toNat x n hn, fun i hi => rotr32_getLsbD x n i hn hi⟩,
    fun x y n => ⟨BitVec.toNat_add x y, shl64_toNat x n⟩⟩
  rw [BitVec.toNat_add, BitVec.toNat_add, Nat.mod_add_mod]

end Sys2Proof.Machine
end

section
/-! PROOFS. Bytes to words and words to bytes, big-endian (00_scope.md R13, 30_encoding.md R57). -/

namespace Sys2Proof.Machine

/-- The bits in front weigh `2 ^ n` each. -/
theorem toNat_append_eq_mul_add {m n : Nat} (x : BitVec m) (y : BitVec n) :
    (x ++ y).toNat = x.toNat * 2 ^ n + y.toNat := by
  rw [BitVec.toNat_append, ← Nat.shiftLeft_add_eq_or_of_lt y.isLt, Nat.shiftLeft_eq]

theorem be32_toNat (b0 b1 b2 b3 : Byte) : (be32 b0 b1 b2 b3).toNat =
    b0.toNat * 2 ^ 24 + b1.toNat * 2 ^ 16 + b2.toNat * 2 ^ 8 + b3.toNat := by
  simp only [be32, toNat_append_eq_mul_add]
  omega

/-- Byte `k` of a word, the most significant being byte 0. -/
theorem bytesBe32_getElem (w : Word) (k : Nat) (hk : k < 4) :
    (bytesBe32 w)[k] = w.extractLsb' (24 - 8 * k) 8 := by
  match k, hk with
  | 0, _ | 1, _ | 2, _ | 3, _ => rfl

/-- Byte `k` of a 64-bit value, the most significant being byte 0. -/
theorem bytesBe64_getElem (v : Word64) (k : Nat) (hk : k < 8) :
    (bytesBe64 v)[k] = v.extractLsb' (56 - 8 * k) 8 := by
  match k, hk with
  | 0, _ | 1, _ | 2, _ | 3, _ | 4, _ | 5, _ | 6, _ | 7, _ => rfl

theorem toNat_extractLsb'_byte {n : Nat} (x : BitVec n) (start : Nat) :
    (x.extractLsb' start 8).toNat = x.toNat / 2 ^ start % 256 := by
  rw [BitVec.extractLsb'_toNat, Nat.shiftRight_eq_div_pow]

/-- Adjacent bytes join to the word they were cut from. -/
theorem be32_bytesBe32 (w : Word) :
    be32 (bytesBe32 w)[0] (bytesBe32 w)[1] (bytesBe32 w)[2] (bytesBe32 w)[3] = w := by
  calc be32 (bytesBe32 w)[0] (bytesBe32 w)[1] (bytesBe32 w)[2] (bytesBe32 w)[3]
      = w.extractLsb' 24 8 ++ w.extractLsb' 16 8 ++ w.extractLsb' 8 8 ++ w.extractLsb' 0 8 := rfl
    _ = w.extractLsb' 0 32 := by
        rw [BitVec.extractLsb'_append_extractLsb'_eq_extractLsb' (show 24 = 16 + 8 from rfl),
          BitVec.extractLsb'_append_extractLsb'_eq_extractLsb' (show 16 = 8 + 8 from rfl),
          BitVec.extractLsb'_append_extractLsb'_eq_extractLsb' (show 8 = 0 + 8 from rfl)]
    _ = w := BitVec.extractLsb'_eq_self

@[simp] theorem bitLength_toNat (c : Word64) : (bitLength c).toNat = c.toNat * 8 % 2 ^ 64 := shl64_toNat c 3

/-- Settles O6: each conversion by the rule for its bytes. -/
theorem conversionsAreBigEndian : Obligations.ConversionsAreBigEndian := by
  refine ⟨be32_toNat, fun w k => ?_, fun v k => ?_, be32_bytesBe32, bitLength_toNat⟩
  · rw [Fin.getElem_fin, bytesBe32_getElem, toNat_extractLsb'_byte]
  · rw [Fin.getElem_fin, bytesBe64_getElem, toNat_extractLsb'_byte]

end Sys2Proof.Machine
end

section
/-! PROOFS. What BUF reads after a write (00_scope.md R14, 20_memory.md R35). -/

namespace Sys2Proof.Machine

/-- A byte in the range written reads as the byte written there, every other byte as before. -/
theorem memWrite_getElem (buf : Block) (addr : Nat) (bs : List Byte) (k : Nat) (hk : k < 64) :
    (memWrite buf addr bs)[k] =
      if addr ≤ k ∧ k < addr + bs.length then bs.getD (k - addr) 0 else buf[k] := by
  induction bs generalizing buf addr with
  | nil => simp
  | cons b bs ih =>
    have hframe (hne : addr ≠ k) : (if h : addr < 64 then buf.set addr b h else buf)[k] = buf[k] := by
      split
      · exact Vector.getElem_set_ne _ _ hne
      · rfl
    rw [memWrite_cons, ih, List.length_cons]
    obtain hbefore | rfl | hbehind := Nat.lt_trichotomy k addr
    · rw [if_neg (by omega), if_neg (by omega), hframe (by omega)]
    · simp [hk]
    · rw [hframe (by omega), show k - addr = k - (addr + 1) + 1 by omega, List.getD_cons_succ]
      exact if_congr (by omega) rfl rfl

theorem toList_getD_eq_getElem (buf : Block) (i : Nat) (hi : i < 64) : buf.toList.getD i 0 = buf[i] := by
  simp [List.getD_eq_getElem?_getD, hi]

/-- Settles O8: the write by induction on the bytes, the read by its definition. -/
theorem bufferReadsWhatWasWritten : Obligations.BufferReadsWhatWasWritten := by
  refine ⟨fun buf addr bs k => ⟨fun hin => ?_, fun hout => ?_⟩, fun buf t => ?_⟩
  · rw [Fin.getElem_fin, memWrite_getElem, if_pos hin]
  · rw [Fin.getElem_fin, memWrite_getElem, if_neg (by omega), Fin.getElem_fin]
  · have ht := t.isLt
    rw [memReadWord, toList_getD_eq_getElem _ _ (by omega), toList_getD_eq_getElem _ _ (by omega),
      toList_getD_eq_getElem _ _ (by omega), toList_getD_eq_getElem _ _ (by omega)]

end Sys2Proof.Machine
end

section
/-! PROOFS. What a command can do, said once for all commands (40_streaming_hasher.md R65 to R73), and which
transactions begin a context afresh (60_exceptions.md R109). -/

namespace Sys2Proof.Machine

theorem exec_init (s : State) : exec .init s = .next (respond .ack (initContext s)) := rfl

theorem exec_hash (data : List Byte) (s : State) :
    exec (.hash data) s = .next (finish (absorbAll data (initContext s))) := rfl

theorem exec_update_of_active (data : List Byte) {s : State} (h : s.phase = .active) :
    exec (.update data) s = .next (respond .ack (absorbAll data s)) := by
  simp [exec, execUpdate, h]

theorem exec_final_of_active {s : State} (h : s.phase = .active) : exec .final s = .next (finish s) := by
  simp [exec, execFinal, h]

theorem exec_update_of_done (data : List Byte) {s : State} (h : s.phase = .done) : exec (.update data) s =
    .next { s with err := true, responses := s.responses ++ [.error .misuseAfterFinal] } := by
  simp [exec, execUpdate, h, raiseMisuse_eq]

theorem exec_final_of_done {s : State} (h : s.phase = .done) : exec .final s =
    .next { s with err := true, responses := s.responses ++ [.error .misuseAfterFinal] } := by
  simp [exec, execFinal, h, raiseMisuse_eq]

theorem phase_active_or_done (s : State) : s.phase = .active ∨ s.phase = .done := by
  cases s.phase <;> simp

/-- The five ways in which a command ends: each command performed, and the refusal of UPDATE or FINAL. -/
theorem exec_cases {i : Instr} {s t : State} (h : exec i s = .next t) :
    (i = .init ∧ t = respond .ack (initContext s)) ∨
    (∃ data, i = .update data ∧ s.phase = .active ∧ t = respond .ack (absorbAll data s)) ∨
    (i = .final ∧ s.phase = .active ∧ t = finish s) ∨
    (∃ data, i = .hash data ∧ t = finish (absorbAll data (initContext s))) ∨
    (((∃ data, i = .update data) ∨ i = .final) ∧ s.phase = .done ∧
      t = { s with err := true, responses := s.responses ++ [.error .misuseAfterFinal] }) := by
  cases i with
  | init => exact .inl ⟨rfl, (Host.Outcome.next.inj h).symm⟩
  | hash data => exact .inr (.inr (.inr (.inl ⟨data, rfl, (Host.Outcome.next.inj h).symm⟩)))
  | update data =>
    obtain hp | hp := phase_active_or_done s
    · rw [exec_update_of_active data hp] at h
      exact .inr (.inl ⟨data, rfl, hp, (Host.Outcome.next.inj h).symm⟩)
    · rw [exec_update_of_done data hp] at h
      exact .inr (.inr (.inr (.inr ⟨.inl ⟨data, rfl⟩, hp, (Host.Outcome.next.inj h).symm⟩)))
  | final =>
    obtain hp | hp := phase_active_or_done s
    · rw [exec_final_of_active hp] at h
      exact .inr (.inr (.inl ⟨rfl, hp, (Host.Outcome.next.inj h).symm⟩))
    · rw [exec_final_of_done hp] at h
      exact .inr (.inr (.inr (.inr ⟨.inr rfl, hp, (Host.Outcome.next.inj h).symm⟩)))

/-- The four values of the opcode field (R61). -/
theorem opcode_cases : ∀ op : BitVec 2, op = 0b00#2 ∨ op = 0b01#2 ∨ op = 0b10#2 ∨ op = 0b11#2 := by decide

theorem encode_of_decode {tx : Transaction} {i : Instr} (h : decode tx = .ok i) : encode i = tx := by
  obtain ⟨op, payload⟩ := tx
  obtain rfl | rfl | rfl | rfl := opcode_cases op
  · cases payload with
    | nil => rw [← Except.ok.inj h, encode]
    | cons b bs => cases h
  · rw [← Except.ok.inj h, encode]
  · cases payload with
    | nil => rw [← Except.ok.inj h, encode]
    | cons b bs => cases h
  · rw [← Except.ok.inj h, encode]

end Sys2Proof.Machine

namespace Sys2Proof.Safety

open Sys2Proof.Machine

/-- Of the commands, INIT and HASH begin afresh. -/
theorem startsAfresh_command_iff {tx : Transaction} {i : Instr} (h : decode tx = .ok i) :
    startsAfresh (.command tx) = true ↔ i = .init ∨ ∃ data, i = .hash data := by
  rw [← encode_of_decode h]
  cases i <;> simp [startsAfresh, encode]

theorem startsAfresh_of_reset {e : HostEvent} (h : e = .reset ∨ ∃ tx, e = .resetDuring tx) :
    startsAfresh e = true := by
  obtain rfl | ⟨tx, rfl⟩ := h <;> rfl

theorem startsAfresh_head_iff {s : State} {e : HostEvent} {rest : List HostEvent} (h : s.events = e :: rest) :
    (∃ e' rest', s.events = e' :: rest' ∧ startsAfresh e' = true) ↔ startsAfresh e = true := by
  simp [h]

end Sys2Proof.Safety
end

section
/-! PROOFS. The cursor and the counter under ABSORB (R67), and the invariant between commands (10_state.md R31,
items 1, 2 and 4). -/

namespace Sys2Proof.Machine

theorem absorb_cnt (b : Byte) (s : State) : (absorb b s).cnt = s.cnt + 1 := by
  obtain ⟨h, -⟩ | ⟨h, -⟩ := absorb_cases b s <;> simp [h]

theorem absorb_fill_val (b : Byte) (s : State) (hf : s.fill.val < 64) :
    (absorb b s).fill.val = (s.fill.val + 1) % 64 := by
  have hn := nextFill_val s.fill hf
  obtain ⟨h, hroom⟩ | ⟨h, hfull⟩ := absorb_cases b s
  · rw [h, putByte_fill]
    omega
  · rw [h, foldBlock_fill, Fin.val_zero]
    omega

theorem absorbAll_cnt (data : List Byte) (s : State) :
    (absorbAll data s).cnt = s.cnt + BitVec.ofNat 64 data.length := by
  induction data generalizing s with
  | nil => simp
  | cons b data ih =>
    rw [absorbAll_cons, ih, absorb_cnt, List.length_cons, Nat.add_comm, BitVec.ofNat_add, BitVec.add_assoc]
    rfl

theorem absorbAll_fill_val (data : List Byte) (s : State) (hf : s.fill.val < 64) :
    (absorbAll data s).fill.val = (s.fill.val + data.length) % 64 := by
  induction data generalizing s with
  | nil => simp [Nat.mod_eq_of_lt hf]
  | cons b data ih =>
    have hb := absorb_fill_val b s hf
    rw [absorbAll_cons, ih _ (by omega), hb, List.length_cons]
    omega

theorem finish_fill_zero (s : State) : (finish s).fill = 0 := by
  obtain ⟨-, -, -, -, -, hfill⟩ := padAndCompress_frame s
  rw [finish_fill, hfill]

end Sys2Proof.Machine

namespace Sys2Proof.Safety

open Sys2Proof.Machine

/-- The invariant speaks of FILL, CNT and PHASE alone. -/
theorem Inv.congr {s t : State} (h : Inv s) (hfill : t.fill = s.fill) (hcnt : t.cnt = s.cnt)
    (hphase : t.phase = s.phase) : Inv t := by
  obtain ⟨hlt, hactive, hdone⟩ := h
  exact ⟨by rwa [hfill], by rwa [hfill, hcnt, hphase], by rwa [hfill, hphase]⟩

theorem inv_of_empty_active {t : State} (hfill : t.fill = 0) (hcnt : t.cnt = 0) (hphase : t.phase = .active) :
    Inv t :=
  ⟨by simp [hfill], by simp [hfill, hcnt], by simp [hphase]⟩

theorem inv_of_empty_done {t : State} (hfill : t.fill = 0) (hphase : t.phase = .done) : Inv t :=
  ⟨by simp [hfill], by simp [hphase], by simp [hfill]⟩

theorem inv_respond (r : Rsp) {s : State} (h : Inv s) : Inv (respond r s) := h.congr rfl rfl rfl

theorem inv_initContext (s : State) : Inv (initContext s) := inv_of_empty_active rfl rfl rfl

theorem inv_resetEngine (s : State) : Inv (resetEngine s) := inv_of_empty_active rfl rfl rfl

theorem inv_finish (s : State) : Inv (finish s) := inv_of_empty_done (finish_fill_zero s) (finish_phase s)

/-- FILL and CNT move together, and 64 divides the 2^64 at which CNT wraps. -/
theorem inv_absorbAll (data : List Byte) {s : State} (hphase : s.phase = .active) (h : Inv s) :
    Inv (absorbAll data s) := by
  have hfill := absorbAll_fill_val data s h.fill_lt
  obtain ⟨hp, -⟩ := absorbAll_frame data s
  refine ⟨by omega, fun _ => ?_, fun hdone => ?_⟩
  · rw [hfill, h.active_fill hphase, absorbAll_cnt, BitVec.toNat_add, BitVec.toNat_ofNat]
    omega
  · rw [hp, hphase] at hdone
    cases hdone

theorem exec_keeps_inv {i : Instr} {s t : State} (h : Inv s) (hexec : exec i s = .next t) : Inv t := by
  obtain ⟨-, rfl⟩ | ⟨data, -, hphase, rfl⟩ | ⟨-, -, rfl⟩ | ⟨data, -, rfl⟩ | ⟨-, -, rfl⟩ := exec_cases hexec
  · exact inv_respond _ (inv_initContext s)
  · exact inv_respond _ (inv_absorbAll data hphase h)
  · exact inv_finish s
  · exact inv_finish _
  · exact h.congr rfl rfl rfl

/-- Settles O32: a step waits, runs a command on the same FILL, CNT and PHASE, or resets. -/
theorem stepKeepsInv : Obligations.StepKeepsInv := by
  intro s t hinv hstep
  obtain ⟨-, rfl⟩ | ⟨tx, rest, i, -, -, hexec⟩ | ⟨e, rest, -, -, rfl⟩ := step_cases hstep
  · exact hinv
  · have hinv' : Inv { s with events := rest } := hinv.congr rfl rfl rfl
    exact exec_keeps_inv hinv' hexec
  · exact inv_resetEngine _

/-- Settles O33: the reset state is an empty ACTIVE context. -/
theorem resetHasInv : Obligations.ResetHasInv := inv_of_empty_active rfl rfl rfl

end Sys2Proof.Safety
end

section
/-! PROOFS. ERR: who sets and clears it, and that nothing reads it (10_state.md R22). -/

namespace Sys2Proof.Machine

theorem finish_keeps_err (s : State) : (finish s).err = s.err := by
  obtain ⟨-, -, herr, -⟩ := padAndCompress_frame s
  rw [finish_err, herr]

theorem absorbAll_keeps_err (data : List Byte) (s : State) : (absorbAll data s).err = s.err := by
  obtain ⟨-, herr, -⟩ := absorbAll_frame data s
  exact herr

/-- INIT and HASH clear ERR; UPDATE and FINAL keep it, or set it where they are refused. -/
theorem exec_err {i : Instr} {s t : State} (h : exec i s = .next t) :
    ((i = .init ∨ ∃ data, i = .hash data) ∧ t.err = false) ∨
    (((∃ data, i = .update data) ∨ i = .final) ∧ (t.err = s.err ∨ s.phase = .done ∧ t.err = true)) := by
  obtain ⟨rfl, rfl⟩ | ⟨data, rfl, -, rfl⟩ | ⟨rfl, -, rfl⟩ | ⟨data, rfl, rfl⟩ | ⟨hi, hdone, rfl⟩ := exec_cases h
  · exact .inl ⟨.inl rfl, rfl⟩
  · exact .inr ⟨.inl ⟨data, rfl⟩, .inl (absorbAll_keeps_err data s)⟩
  · exact .inr ⟨.inr rfl, .inl (finish_keeps_err s)⟩
  · exact .inl ⟨.inr ⟨data, rfl⟩, by rw [finish_keeps_err, absorbAll_keeps_err, initContext_err]⟩
  · exact .inr ⟨hi, .inr ⟨hdone, rfl⟩⟩

/-- `s` with ERR set to `e`. -/
def State.withErr (e : Bool) (s : State) : State := { s with err := e }

@[simp] theorem withErr_fill (e : Bool) (s : State) : (s.withErr e).fill = s.fill := rfl

@[simp] theorem withErr_hash (e : Bool) (s : State) : (s.withErr e).hash = s.hash := rfl

@[simp] theorem withErr_cnt (e : Bool) (s : State) : (s.withErr e).cnt = s.cnt := rfl

theorem initContext_withErr (e : Bool) (s : State) : initContext (s.withErr e) = initContext s := rfl

theorem withErr_initContext (s : State) : (initContext s).withErr false = initContext s := rfl

theorem respond_withErr (r : Rsp) (e : Bool) (s : State) :
    respond r (s.withErr e) = (respond r s).withErr e := rfl

theorem putByte_withErr (b : Byte) (e : Bool) (s : State) :
    putByte b (s.withErr e) = (putByte b s).withErr e := rfl

theorem putLength_withErr (len : Word64) (e : Bool) (s : State) :
    putLength len (s.withErr e) = (putLength len s).withErr e := rfl

theorem foldBlock_withErr (e : Bool) (s : State) : foldBlock (s.withErr e) = (foldBlock s).withErr e := by
  simp only [foldBlock, emptyBuffer, compressBuffer_eq, State.withErr]

theorem absorb_withErr (b : Byte) (e : Bool) (s : State) : absorb b (s.withErr e) = (absorb b s).withErr e := by
  have hfold := foldBlock_withErr e { putByte b s with cnt := s.cnt + 1 }
  obtain ⟨h, hne⟩ | ⟨h, heq⟩ := absorb_cases b s <;>
    obtain ⟨h', hne'⟩ | ⟨h', heq'⟩ := absorb_cases b (s.withErr e)
  · rw [h, h']; rfl
  · exact absurd heq' hne
  · exact absurd heq hne'
  · rw [h, h', ← hfold]; rfl

theorem absorbAll_withErr (data : List Byte) (e : Bool) (s : State) :
    absorbAll data (s.withErr e) = (absorbAll data s).withErr e := by
  induction data generalizing s with
  | nil => rfl
  | cons b data ih => rw [absorbAll_cons, absorb_withErr, ih, absorbAll_cons]

theorem putZeros_withErr (n : Nat) (e : Bool) (s : State) :
    putZeros n (s.withErr e) = (putZeros n s).withErr e := by
  induction n generalizing s with
  | zero => rfl
  | succ n ih => rw [putZeros, putByte_withErr, ih, putZeros]

theorem zeroFillTo_withErr (limit : Nat) (e : Bool) (s : State) :
    zeroFillTo limit (s.withErr e) = (zeroFillTo limit s).withErr e := putZeros_withErr _ e s

theorem spillIfNoRoom_withErr (e : Bool) (s : State) :
    spillIfNoRoom (s.withErr e) = (spillIfNoRoom s).withErr e := by
  rw [spillIfNoRoom, spillIfNoRoom, withErr_fill]
  split
  · rw [zeroFillTo_withErr, foldBlock_withErr]
  · rfl

theorem padAndCompress_withErr (e : Bool) (s : State) :
    padAndCompress (s.withErr e) = (padAndCompress s).withErr e := by
  simp only [padAndCompress, withErr_cnt, putByte_withErr, spillIfNoRoom_withErr, zeroFillTo_withErr,
    putLength_withErr, foldBlock_withErr]

theorem finish_withErr (e : Bool) (s : State) : finish (s.withErr e) = (finish s).withErr e := by
  rw [finish, padAndCompress_withErr, withErr_hash, finish]
  simp only [respond, State.withErr]

/-- A command that does not set ERR itself carries the changed value to its end. -/
theorem exec_withErr (i : Instr) (s : State) (e : Bool) :
    ∃ t e', exec i s = .next t ∧ exec i (s.withErr e) = .next (t.withErr e') := by
  cases i with
  | init => exact ⟨_, false, exec_init s, rfl⟩
  | hash data =>
    refine ⟨_, false, exec_hash data s, ?_⟩
    rw [exec_hash, initContext_withErr, ← finish_withErr, ← absorbAll_withErr, withErr_initContext]
  | update data =>
    obtain hp | hp := phase_active_or_done s
    · refine ⟨_, e, exec_update_of_active data hp, ?_⟩
      rw [exec_update_of_active data (s := s.withErr e) hp, absorbAll_withErr, respond_withErr]
    · exact ⟨_, true, exec_update_of_done data hp, exec_update_of_done data (s := s.withErr e) hp⟩
  | final =>
    obtain hp | hp := phase_active_or_done s
    · refine ⟨_, e, exec_final_of_active hp, ?_⟩
      rw [exec_final_of_active (s := s.withErr e) hp, finish_withErr]
    · exact ⟨_, true, exec_final_of_done hp, exec_final_of_done (s := s.withErr e) hp⟩

/-- Settles O37: ERR passes through every operation. -/
theorem errIsReadByNothing : Obligations.ErrIsReadByNothing := by
  intro i s b
  obtain ⟨t, e', ht, hu⟩ := exec_withErr i s b
  exact ⟨t, t.withErr e', ht, hu, rfl⟩

end Sys2Proof.Machine

namespace Sys2Proof.Safety

open Sys2Proof.Machine

/-- Settles O36: the three kinds of step; for a command, INIT and HASH on the one side, UPDATE and FINAL on the
other. -/
theorem errIsSticky : Obligations.ErrIsSticky := by
  intro s t hstep
  obtain ⟨hevents, rfl⟩ | ⟨tx, rest, i, hevents, hdecode, hexec⟩ | ⟨e, rest, hevents, hreset, rfl⟩ :=
    step_cases hstep
  · simp [hevents]
  · rw [startsAfresh_head_iff hevents, startsAfresh_command_iff hdecode]
    obtain ⟨hfresh, herr⟩ | ⟨hi, herr⟩ := exec_err hexec
    · simp [herr, hfresh]
    · have hnot : ¬(i = .init ∨ ∃ data, i = .hash data) := by
        obtain ⟨data, rfl⟩ | rfl := hi <;> simp
      obtain hsame | ⟨hdone, hset⟩ := herr
      · exact ⟨fun hclear hset => absurd hset (by simp [hsame, hclear]),
          fun hset hclear => absurd hclear (by simp [hsame, hset]), fun hfresh => absurd hfresh hnot⟩
      · exact ⟨fun _ _ => ⟨hdone, tx, rest, i, hevents, hdecode, hi⟩, fun _ hclear => absurd hclear (by simp [hset]),
          fun hfresh => absurd hfresh hnot⟩
  · rw [startsAfresh_head_iff hevents, startsAfresh_of_reset hreset]
    simp

end Sys2Proof.Safety
end

section
/-! PROOFS. The DIGEST view (10_state.md R23, 40_streaming_hasher.md R71). -/

namespace Sys2Proof.Machine

theorem digestView_eq_some_iff (s : State) (d : Digest) :
    digestView s = some d ↔ s.phase = .done ∧ serialise s.hash = d := by
  simp [digestView, digestValid]

theorem digestView_finish (s : State) : digestView (finish s) = some (serialise (padAndCompress s).hash) := by
  rw [digestView_eq_some_iff]
  exact ⟨finish_phase s, by rw [finish_hash]⟩

theorem finish_appends_digest (s : State) :
    (finish s).responses = s.responses ++ [.digest (serialise (padAndCompress s).hash)] := by
  obtain ⟨-, -, -, -, hresponses, -⟩ := padAndCompress_frame s
  rw [finish_responses, hresponses]

/-- A DIGEST response comes from FINAL or HASH, and carries what the view then shows. -/
theorem digestView_of_digest_response {i : Instr} {s t : State} {d : Digest} (h : exec i s = .next t)
    (hd : t.responses = s.responses ++ [.digest d]) : digestView t = some d := by
  have hfinish (u : State) (hu : u.responses = s.responses)
      (hud : (finish u).responses = s.responses ++ [.digest d]) : digestView (finish u) = some d := by
    rw [finish_appends_digest, hu] at hud
    rw [digestView_finish]
    simpa using hud
  obtain ⟨-, rfl⟩ | ⟨data, -, -, rfl⟩ | ⟨-, -, rfl⟩ | ⟨data, -, rfl⟩ | ⟨-, -, rfl⟩ := exec_cases h
  · simp at hd
  · obtain ⟨-, -, -, hresponses⟩ := absorbAll_frame data s
    simp [hresponses] at hd
  · exact hfinish s rfl hd
  · obtain ⟨-, -, -, hresponses⟩ := absorbAll_frame data (initContext s)
    exact hfinish _ hresponses hd
  · simp at hd

/-- In DONE, UPDATE and FINAL are refused, and a refusal touches neither PHASE nor H. -/
theorem exec_keeps_digestView {i : Instr} {s t : State} {d : Digest} (h : exec i s = .next t)
    (hi : ¬(i = .init ∨ ∃ data, i = .hash data)) (hview : digestView s = some d) : digestView t = some d := by
  rw [digestView_eq_some_iff] at hview ⊢
  obtain ⟨hdone, hd⟩ := hview
  obtain ⟨rfl, -⟩ | ⟨data, -, hactive, -⟩ | ⟨-, hactive, -⟩ | ⟨data, rfl, -⟩ | ⟨-, -, rfl⟩ := exec_cases h
  · exact absurd (.inl rfl) hi
  · simp [hdone] at hactive
  · simp [hdone] at hactive
  · exact absurd (.inr ⟨data, rfl⟩) hi
  · exact ⟨hdone, hd⟩

end Sys2Proof.Machine

namespace Sys2Proof.Safety

open Sys2Proof.Machine

/-- Settles O38: in DONE nothing but INIT, HASH and reset is performed. -/
theorem digestViewLastsUntilFreshStart : Obligations.DigestViewLastsUntilFreshStart := by
  refine ⟨fun s => ?_, fun s t d hview hstep hnofresh => ?_, fun i s t d => digestView_of_digest_response⟩
  · obtain hp | hp := phase_active_or_done s <;> simp [digestView, digestValid, hp]
  · obtain ⟨-, rfl⟩ | ⟨tx, rest, i, hevents, hdecode, hexec⟩ | ⟨e, rest, hevents, hreset, -⟩ := step_cases hstep
    · exact hview
    · have hfresh := hnofresh _ rest hevents
      rw [← Bool.not_eq_true, startsAfresh_command_iff hdecode] at hfresh
      have hview' : digestView { s with events := rest } = some d := hview
      exact exec_keeps_digestView hexec hfresh hview'
    · have hfresh := hnofresh e rest hevents
      rw [startsAfresh_of_reset hreset] at hfresh
      cases hfresh

end Sys2Proof.Safety
end

section
/-! PROOFS. COMPRESS() in place is the function Compress of H and BUF (43_compression_function.md R95, R102),
whatever the working storage held. -/

namespace Sys2Proof.Machine

/-- Two folds that start related stay related when every step keeps the relation. -/
theorem fold_related {α β : Type} (R : Nat → α → β → Prop) (n : Nat) (f : (i : Nat) → i < n → α → α)
    (g : (i : Nat) → i < n → β → β) (a : α) (b : β) (hstart : R 0 a b)
    (hstep : ∀ i h x y, R i x y → R (i + 1) (f i h x) (g i h y)) : R n (n.fold f a) (n.fold g b) := by
  induction n with
  | zero => exact hstart
  | succ n ih =>
    rw [Nat.fold_succ, Nat.fold_succ]
    exact hstep n _ _ _ (ih _ _ fun i h => hstep i _)

/-- The two schedules have the same first `n` words. -/
def AgreeBelow (n : Nat) (w w' : Schedule) : Prop := ∀ k (hk : k < 64), k < n → w[k] = w'[k]

theorem AgreeBelow.set {n : Nat} {w w' : Schedule} (h : AgreeBelow n w w') (hn : n < 64) (v : Word) :
    AgreeBelow (n + 1) (w.set n v) (w'.set n v) := by
  intro k hk hkn
  rw [Vector.getElem_set, Vector.getElem_set]
  split
  · rfl
  · exact h k hk (by omega)

/-- The block load leaves no old word among the first 16 (R79). -/
theorem loadBlock_agree (buf : Block) (w w' : Schedule) : AgreeBelow 16 (loadBlock buf w) (loadBlock buf w') :=
  fold_related AgreeBelow 16 _ _ w w' (fun _ _ h => absurd h (Nat.not_lt_zero _))
    fun i hi _ _ h => h.set (by omega) (memReadWord buf ⟨i, hi⟩)

/-- The recurrence reads only words it finds below the one it writes (R82). -/
theorem expandSchedule_eq_of_agree {w w' : Schedule} (h : AgreeBelow 16 w w') :
    expandSchedule w = expandSchedule w' := by
  have hall : AgreeBelow (48 + 16) (expandSchedule w) (expandSchedule w') :=
    fold_related (fun i => AgreeBelow (i + 16)) 48 _ _ w w' h fun i hi x y hxy => by
      rw [hxy (i + 14) (by omega) (by omega), hxy (i + 1) (by omega) (by omega), hxy (i + 9) (by omega) (by omega),
        hxy i (by omega) (by omega), Nat.add_right_comm]
      exact hxy.set (by omega) _
  exact Vector.ext fun k hk => hall k hk hk

/-- SCHED on the engine's own storage writes the schedule of the block over W (R83). -/
theorem scratch_sched_eq (buf : Block) (x : Scratch) : x.sched buf = { x with w := sched buf } := by
  rw [Scratch.sched, sched, expandSchedule_eq_of_agree (loadBlock_agree buf x.w _)]

theorem scratch_round_of_lt {x : Scratch} (hj : x.j.val < 64) :
    x.round.vars = roundVars K[x.j.val] x.w[x.j.val] x.vars ∧ x.round.w = x.w ∧ x.round.j.val = x.j.val + 1 := by
  simp [Scratch.round, hj, roundVars]

/-- The rounds on the engine's own storage, from j = 0, are the fold of rounds over the same W (R102). -/
theorem scratch_runRounds_eq (x : Scratch) (hstart : x.j = 0) (n : Nat) (hn : n ≤ 64) :
    (Scratch.runRounds n x).vars = Nat.fold n (fun j _ v => roundVars K[j] x.w[j] v) x.vars ∧
      (Scratch.runRounds n x).w = x.w ∧ (Scratch.runRounds n x).j.val = n := by
  induction n with
  | zero => exact ⟨rfl, rfl, by rw [Scratch.runRounds, hstart]; rfl⟩
  | succ n ih =>
    obtain ⟨hvars, hw, hj⟩ := ih (by omega)
    obtain ⟨hvars', hw', hj'⟩ := scratch_round_of_lt (x := Scratch.runRounds n x) (by omega)
    rw [runRounds_succ, Nat.fold_succ]
    refine ⟨?_, hw'.trans hw, by omega⟩
    rw [hvars', ← hvars]
    simp only [hj, hw]

@[simp] theorem compressBuffer_hash (s : State) : (compressBuffer s).hash = compress s.hash s.buf := by
  obtain ⟨hvars, -, -⟩ :=
    scratch_runRounds_eq (({ s.scratch with w := sched s.buf } : Scratch).load s.hash) rfl 64 le_rfl
  rw [compressBuffer_eq, scratch_sched_eq, hvars]
  rfl

end Sys2Proof.Machine
end

section
/-! PROOFS. H is written by compressions, block by block, and by the initialisation (10_state.md R17). -/

namespace Sys2Proof.Machine

/-- `t` comes after `s`, and between them H changed by compressions alone, those that were counted. -/
def FoldsBlocks (s t : State) : Prop :=
  ∃ blocks : List Block, t.draws = s.draws + blocks.length ∧ t.hash = blocks.foldl compress s.hash

theorem foldsBlocks_of_same {s t : State} (hdraws : t.draws = s.draws) (hhash : t.hash = s.hash) :
    FoldsBlocks s t := ⟨[], hdraws, hhash⟩

theorem FoldsBlocks.trans {s t u : State} (h : FoldsBlocks s t) (h' : FoldsBlocks t u) : FoldsBlocks s u := by
  obtain ⟨blocks, hdraws, hhash⟩ := h
  obtain ⟨blocks', hdraws', hhash'⟩ := h'
  refine ⟨blocks ++ blocks', ?_, ?_⟩
  · rw [hdraws', hdraws, List.length_append, Nat.add_assoc]
  · rw [hhash', hhash, List.foldl_append]

theorem foldsBlocks_foldBlock (s : State) : FoldsBlocks s (foldBlock s) :=
  ⟨[s.buf], foldBlock_draws s, by rw [foldBlock_hash, compressBuffer_hash]; rfl⟩

theorem foldsBlocks_absorb (b : Byte) (s : State) : FoldsBlocks s (absorb b s) := by
  have hput : FoldsBlocks s { putByte b s with cnt := s.cnt + 1 } := foldsBlocks_of_same rfl rfl
  obtain ⟨h, -⟩ | ⟨h, -⟩ := absorb_cases b s
  · rw [h]
    exact hput
  · rw [h]
    exact hput.trans (foldsBlocks_foldBlock _)

theorem foldsBlocks_absorbAll (data : List Byte) (s : State) : FoldsBlocks s (absorbAll data s) := by
  induction data generalizing s with
  | nil => exact foldsBlocks_of_same rfl rfl
  | cons b data ih => exact (foldsBlocks_absorb b s).trans (ih (absorb b s))

theorem foldsBlocks_zeroFillTo (limit : Nat) (s : State) : FoldsBlocks s (zeroFillTo limit s) := by
  obtain ⟨buf, fill, h⟩ := putZeros_frame (limit - s.fill.val) s
  rw [zeroFillTo, h]
  exact foldsBlocks_of_same rfl rfl

theorem foldsBlocks_spillIfNoRoom (s : State) : FoldsBlocks s (spillIfNoRoom s) := by
  unfold spillIfNoRoom
  split
  · exact (foldsBlocks_zeroFillTo _ s).trans (foldsBlocks_foldBlock _)
  · exact foldsBlocks_of_same rfl rfl

theorem foldsBlocks_padAndCompress (s : State) : FoldsBlocks s (padAndCompress s) := by
  have hmark : FoldsBlocks s (putByte Config.padMark s) := foldsBlocks_of_same rfl rfl
  have hspill := hmark.trans (foldsBlocks_spillIfNoRoom _)
  have hzeros := hspill.trans (foldsBlocks_zeroFillTo Config.padLimit _)
  have hlength := hzeros.trans (foldsBlocks_of_same (putLength_draws (bitLength s.cnt) _) (putLength_hash _ _))
  exact hlength.trans (foldsBlocks_foldBlock _)

theorem foldsBlocks_finish (s : State) : FoldsBlocks s (finish s) :=
  (foldsBlocks_padAndCompress s).trans (foldsBlocks_of_same (finish_draws s) (finish_hash s))

/-- INIT and HASH fold blocks into IV, the other commands into the H they find. -/
theorem exec_foldsBlocks {i : Instr} {s t : State} (h : exec i s = .next t) :
    FoldsBlocks s t ∨ ((i = .init ∨ ∃ data, i = .hash data) ∧ FoldsBlocks (initContext s) t) := by
  obtain ⟨rfl, rfl⟩ | ⟨data, -, -, rfl⟩ | ⟨-, -, rfl⟩ | ⟨data, rfl, rfl⟩ | ⟨-, -, rfl⟩ := exec_cases h
  · exact .inr ⟨.inl rfl, foldsBlocks_of_same rfl rfl⟩
  · exact .inl ((foldsBlocks_absorbAll data s).trans (foldsBlocks_of_same rfl rfl))
  · exact .inl (foldsBlocks_finish s)
  · exact .inr ⟨.inr ⟨data, rfl⟩, (foldsBlocks_absorbAll data _).trans (foldsBlocks_finish _)⟩
  · exact .inl (foldsBlocks_of_same rfl rfl)

end Sys2Proof.Machine

namespace Sys2Proof.Safety

open Sys2Proof.Machine

/-- Settles O35: every operation folds blocks, into IV after an initialisation. -/
theorem hashStateHasTwoWriters : Obligations.HashStateHasTwoWriters := by
  intro s t hstep
  obtain ⟨-, rfl⟩ | ⟨tx, rest, i, hevents, hdecode, hexec⟩ | ⟨e, rest, hevents, hreset, rfl⟩ := step_cases hstep
  · exact ⟨[], rfl, .inl rfl⟩
  · obtain ⟨blocks, hdraws, hhash⟩ | ⟨hi, blocks, hdraws, hhash⟩ := exec_foldsBlocks hexec
    · exact ⟨blocks, hdraws, .inl hhash⟩
    · exact ⟨blocks, hdraws, .inr ⟨hhash, _, rest, hevents, (startsAfresh_command_iff hdecode).2 hi⟩⟩
  · exact ⟨[], rfl, .inr ⟨rfl, e, rest, hevents, startsAfresh_of_reset hreset⟩⟩

end Sys2Proof.Safety
end

section
/-! PROOFS. Cutting a byte sequence into whole blocks, and the padding as those blocks (42_padding_encoder.md R86,
40_streaming_hasher.md R75). -/

namespace Sys2Proof.Machine

theorem bytesBe64_length (v : Word64) : (bytesBe64 v).toList.length = 8 := Vector.length_toList

theorem zeros_length (n : Nat) : (zeros n).length = n := List.length_replicate

theorem zeros_append (m n : Nat) : zeros m ++ zeros n = zeros (m + n) := List.replicate_append_replicate

theorem wholeBlocks_of_lt (bytes : List Byte) (h : bytes.length < 64) : wholeBlocks bytes = [] := by
  rw [wholeBlocks, Nat.div_eq_of_lt h, takeBlocks]

theorem wholeBlocks_singleton (bytes : List Byte) (h : bytes.length = 64) : wholeBlocks bytes = [blockOf bytes] := by
  rw [wholeBlocks, h, show 64 / 64 = 0 + 1 from rfl, takeBlocks, takeBlocks, List.take_of_length_le h.le]

/-- More bytes add their blocks behind the ones there were, which keep theirs; the bytes that were left over go
before the new ones. -/
theorem wholeBlocks_append (bytes more : List Byte) : wholeBlocks (bytes ++ more) =
    wholeBlocks bytes ++ wholeBlocks (bytes.drop (64 * (bytes.length / 64)) ++ more) := by
  have hcut : bytes ++ more =
      bytes.take (64 * (bytes.length / 64)) ++ (bytes.drop (64 * (bytes.length / 64)) ++ more) := by
    rw [← List.append_assoc, List.take_append_drop]
  have hcount : (bytes ++ more).length / 64 =
      bytes.length / 64 + (bytes.drop (64 * (bytes.length / 64)) ++ more).length / 64 := by
    simp only [List.length_append, List.length_drop]
    omega
  rw [wholeBlocks, hcount, hcut, takeBlocks_append, takeBlocks_take]
  · rfl
  · rw [List.length_take]
    omega

theorem wholeBlocks_flatten (blocks : List (List Byte)) (h : ∀ b ∈ blocks, b.length = 64) :
    wholeBlocks blocks.flatten = blocks.map blockOf := by
  induction blocks with
  | nil => rfl
  | cons b blocks ih =>
    obtain ⟨hb, hblocks⟩ := List.forall_mem_cons.mp h
    rw [List.flatten_cons, wholeBlocks_append, wholeBlocks_singleton b hb, List.drop_of_length_le (by omega),
      List.nil_append, ih hblocks, List.map_cons, List.singleton_append]

/-- The layout of R55 with room for the length in the block of the marker. -/
theorem pad_of_room (res : List Byte) (len : Word64) (h : res.length ≤ 55) :
    pad res len = [res ++ [Config.padMark] ++ zeros (55 - res.length) ++ (bytesBe64 len).toList] := by
  have hlen : (res ++ [Config.padMark]).length = res.length + 1 := List.length_append
  have hroom : (res ++ [Config.padMark]).length ≤ 56 := by omega
  have hzeros : 56 - (res ++ [Config.padMark]).length = 55 - res.length := by omega
  rw [pad, if_pos hroom, hzeros]

/-- The layout of R55 in which the length spills into a second block. -/
theorem pad_of_spill (res : List Byte) (len : Word64) (h : 56 ≤ res.length) :
    pad res len = [res ++ [Config.padMark] ++ zeros (63 - res.length), zeros 56 ++ (bytesBe64 len).toList] := by
  have hlen : (res ++ [Config.padMark]).length = res.length + 1 := List.length_append
  have hroom : ¬(res ++ [Config.padMark]).length ≤ 56 := by omega
  have hzeros : 64 - (res ++ [Config.padMark]).length = 63 - res.length := by omega
  rw [pad, if_neg hroom, hzeros]

theorem length_of_mem_pad {res : List Byte} {len : Word64} (h : res.length < 64) :
    ∀ b ∈ pad res len, b.length = 64 := by
  obtain hroom | hspill : res.length ≤ 55 ∨ 56 ≤ res.length := by omega
  · rw [pad_of_room res len hroom]
    refine List.forall_mem_singleton.mpr ?_
    simp only [List.length_append, List.length_singleton, zeros_length, bytesBe64_length]
    omega
  · rw [pad_of_spill res len hspill]
    refine List.forall_mem_cons.mpr ⟨?_, List.forall_mem_singleton.mpr ?_⟩
    · simp only [List.length_append, List.length_singleton, zeros_length]
      omega
    · rw [List.length_append, zeros_length, bytesBe64_length]

/-- PAD gives the residual, the marker, the zeros of R88 and the length, cut into blocks. -/
theorem pad_flatten (res : List Byte) (len : Word64) (h : res.length < 64) : (pad res len).flatten =
    res ++ [Config.padMark] ++ zeros (padZeroCount res.length) ++ (bytesBe64 len).toList := by
  obtain hroom | hspill : res.length ≤ 55 ∨ 56 ≤ res.length := by omega
  · have hcount : padZeroCount res.length = 55 - res.length := by rw [padZeroCount]; omega
    rw [pad_of_room res len hroom, hcount, List.flatten_singleton]
  · have hcount : padZeroCount res.length = 63 - res.length + 56 := by rw [padZeroCount]; omega
    rw [pad_of_spill res len hspill, hcount, ← zeros_append]
    simp

/-- The blocks of the padded message are its whole blocks, then PAD of the bytes left over. -/
theorem wholeBlocks_padded (msg : List Byte) : wholeBlocks (padded msg) = wholeBlocks msg ++
    (pad (msg.drop (64 * (msg.length / 64))) (BitVec.ofNat 64 (8 * msg.length))).map blockOf := by
  have hlt : (msg.drop (64 * (msg.length / 64))).length < 64 := by rw [List.length_drop]; omega
  have hcount : padZeroCount msg.length = padZeroCount (msg.drop (64 * (msg.length / 64))).length := by
    rw [List.length_drop, padZeroCount, padZeroCount]
    omega
  rw [← wholeBlocks_flatten _ (length_of_mem_pad hlt), pad_flatten _ _ hlt, ← hcount, padded]
  simp only [List.append_assoc]
  exact wholeBlocks_append msg _

/-- L of a counter that counts `n` bytes is the length field of a message of `n` bytes. -/
theorem bitLength_ofNat (n : Nat) : bitLength (BitVec.ofNat 64 n) = BitVec.ofNat 64 (8 * n) := by
  apply BitVec.eq_of_toNat_eq
  rw [bitLength_toNat, BitVec.toNat_ofNat, BitVec.toNat_ofNat]
  omega

end Sys2Proof.Machine
end

section
/-! PROOFS. FINAL's padding in place folds the blocks of PAD (40_streaming_hasher.md R69, 42_padding_encoder.md
R90). -/

namespace Sys2Proof.Machine

/-- A write at the cursor that fits lengthens the residual by the bytes written. -/
theorem take_memWrite (s : State) (bs : List Byte) (h : s.fill.val + bs.length ≤ 64) :
    (memWrite s.buf s.fill.val bs).toList.take (s.fill.val + bs.length) = residualBytes s ++ bs := by
  have hlen : (residualBytes s ++ bs).length = s.fill.val + bs.length := by
    rw [List.length_append, residualBytes_length]
  rw [memWrite_toList _ _ _ h, ← residualBytes, ← hlen, List.take_left]

/-- A write from the cursor to the end of BUF leaves the residual and the bytes written. -/
theorem memWrite_eq_blockOf (s : State) (bs : List Byte) (h : s.fill.val + bs.length = 64) :
    memWrite s.buf s.fill.val bs = blockOf (residualBytes s ++ bs) := by
  have hwhole := take_memWrite s bs h.le
  rw [h, List.take_of_length_le (by simp)] at hwhole
  rw [← hwhole, blockOf_toList]

theorem residualBytes_putByte (b : Byte) (s : State) (h : s.fill.val < 64) :
    residualBytes (putByte b s) = residualBytes s ++ [b] := by
  rw [residualBytes, putByte_buf, putByte_fill, nextFill_val _ h]
  exact take_memWrite s [b] h

/-- The spill folds the residual filled up with zeros. -/
theorem foldBlock_zeroFill_hash (s : State) : (foldBlock (zeroFillTo 64 s)).hash =
    compress s.hash (blockOf (residualBytes s ++ zeros (64 - s.fill.val))) := by
  have hf := s.fill.isLt
  rw [foldBlock_hash, compressBuffer_hash, zeroFillTo_spec 64 s (by omega) le_rfl,
    memWrite_eq_blockOf s _ (by rw [zeros_length]; omega)]

/-- The last block folds the residual, zeros up to offset 56, and the length field. -/
theorem foldBlock_putLength_hash (len : Word64) (s : State) (h : s.fill.val ≤ 56) :
    (foldBlock (putLength len (zeroFillTo 56 s))).hash =
      compress s.hash (blockOf (residualBytes s ++ zeros (56 - s.fill.val) ++ (bytesBe64 len).toList)) := by
  have hend : s.fill.val + (zeros (56 - s.fill.val)).length = 56 := by rw [zeros_length]; omega
  have hbuf : memWrite (memWrite s.buf s.fill.val (zeros (56 - s.fill.val))) 56 (bytesBe64 len).toList =
      blockOf (residualBytes s ++ zeros (56 - s.fill.val) ++ (bytesBe64 len).toList) := by
    rw [List.append_assoc, ← memWrite_eq_blockOf, memWrite_append, hend]
    rw [List.length_append, bytesBe64_length]
    omega
  rw [foldBlock_hash, compressBuffer_hash, zeroFillTo_spec 56 s h (by omega), putLength_hash, putLength_buf, hbuf]

theorem spillIfNoRoom_of_room {s : State} (h : s.fill.val ≤ 56) : spillIfNoRoom s = s :=
  if_neg (Nat.not_lt.mpr h)

theorem spillIfNoRoom_of_spill {s : State} (h : 56 < s.fill.val) :
    spillIfNoRoom s = foldBlock (zeroFillTo 64 s) := if_pos h

/-- The two layouts of PAD are the two ways through the padding: with room for the length, and with the spill. -/
theorem padAndCompress_hash (s : State) (h : s.fill.val < 64) : (padAndCompress s).hash =
    ((pad (residualBytes s) (bitLength s.cnt)).map blockOf).foldl compress s.hash := by
  have hlen := residualBytes_length s
  have hmark := residualBytes_putByte Config.padMark s h
  have hfill : (putByte Config.padMark s).fill.val = s.fill.val + 1 := nextFill_val s.fill h
  obtain hroom | hspill : s.fill.val ≤ 55 ∨ 56 ≤ s.fill.val := by omega
  · rw [pad_of_room _ _ (by omega), padAndCompress, spillIfNoRoom_of_room (by omega),
      foldBlock_putLength_hash _ _ (by omega), hmark, hfill, putByte_hash, hlen, Nat.add_sub_add_right 55 1]
    rfl
  · rw [pad_of_spill _ _ (by omega), padAndCompress, spillIfNoRoom_of_spill (by omega),
      foldBlock_putLength_hash _ _ (by simp), foldBlock_zeroFill_hash, foldBlock_fill,
      residualBytes_of_fill_zero _ (foldBlock_fill _), hmark, hfill, putByte_hash, hlen, Nat.add_sub_add_right 63 1]
    rfl

end Sys2Proof.Machine
end

section
/-! PROOFS. What the context holds while a message is streamed (10_state.md R31, item 3). -/

namespace Sys2Proof.Machine

/-- `s` has taken in `bytes` since its hash state was `start`: the whole blocks are folded, the others pending. -/
structure HoldsFrom (start : HashState) (bytes : List Byte) (s : State) : Prop where
  cursor : s.fill.val = bytes.length % 64
  folded : s.hash = (wholeBlocks bytes).foldl compress start
  pending : residualBytes s = bytes.drop (64 * (bytes.length / 64))

/-- An empty buffer holds nothing beyond its hash state. -/
theorem holdsFrom_nil {s : State} (h : s.fill = 0) : HoldsFrom s.hash [] s :=
  ⟨by simp [h], rfl, residualBytes_of_fill_zero s h⟩

/-- The two cases of ABSORB: the byte joins the residual, or it completes a block, which is folded. -/
theorem HoldsFrom.absorb {start : HashState} {bytes : List Byte} {s : State} (h : HoldsFrom start bytes s) (b : Byte) :
    HoldsFrom start (bytes ++ [b]) (absorb b s) := by
  obtain ⟨hcursor, hfolded, hpending⟩ := h
  have hf : s.fill.val < 64 := by omega
  have hnext := nextFill_val s.fill hf
  have hlen : (bytes ++ [b]).length = bytes.length + 1 := List.length_append
  have hres := residualBytes_length s
  have hblocks := wholeBlocks_append bytes [b]
  rw [← hpending] at hblocks
  obtain ⟨habsorb, hroom⟩ | ⟨habsorb, hfull⟩ := absorb_cases b s
  · rw [wholeBlocks_of_lt (residualBytes s ++ [b]) (by simp; omega), List.append_nil] at hblocks
    refine ⟨?_, ?_, ?_⟩
    · rw [absorb_fill_val b s hf]
      omega
    · rw [habsorb, hblocks, ← hfolded]
      rfl
    · rw [hlen, show (bytes.length + 1) / 64 = bytes.length / 64 by omega,
        List.drop_append_of_le_length (by omega), ← hpending, habsorb]
      exact residualBytes_putByte b s hf
  · rw [wholeBlocks_singleton (residualBytes s ++ [b]) (by simp; omega)] at hblocks
    refine ⟨?_, ?_, ?_⟩
    · rw [absorb_fill_val b s hf]
      omega
    · rw [habsorb, hblocks, List.foldl_append, ← hfolded, ← memWrite_eq_blockOf s [b] (by simp; omega),
        foldBlock_hash, compressBuffer_hash]
      rfl
    · rw [habsorb, residualBytes_of_fill_zero _ (foldBlock_fill _), List.drop_of_length_le (by omega)]

theorem HoldsFrom.absorbAll {start : HashState} {bytes : List Byte} {s : State} (h : HoldsFrom start bytes s)
    (data : List Byte) : HoldsFrom start (bytes ++ data) (absorbAll data s) := by
  induction data generalizing s bytes with
  | nil => simpa using h
  | cons b data ih => simpa [absorbAll_cons] using ih (h.absorb b)

/-- FINAL folds the blocks of the padded message, when the counter has its length. -/
theorem HoldsFrom.padAndCompress_hash {start : HashState} {msg : List Byte} {s : State} (h : HoldsFrom start msg s)
    (hcnt : s.cnt = BitVec.ofNat 64 msg.length) :
    (padAndCompress s).hash = (wholeBlocks (padded msg)).foldl compress start := by
  obtain ⟨hcursor, hfolded, hpending⟩ := h
  rw [Machine.padAndCompress_hash s (by omega), hpending, hcnt, bitLength_ofNat, hfolded, ← List.foldl_append,
    wholeBlocks_padded]

end Sys2Proof.Machine

namespace Sys2Proof.Safety

open Sys2Proof.Machine

/-- A context holds a message when it has taken it in from IV, counting its bytes. -/
theorem absorbed_iff {msg : List Byte} {s : State} : Absorbed msg s ↔
    s.phase = .active ∧ s.cnt = BitVec.ofNat 64 msg.length ∧ HoldsFrom IV msg s :=
  ⟨fun ⟨hactive, hcount, hcursor, hfolded, hpending⟩ => ⟨hactive, hcount, hcursor, hfolded, hpending⟩,
    fun ⟨hactive, hcount, hcursor, hfolded, hpending⟩ => ⟨hactive, hcount, hcursor, hfolded, hpending⟩⟩

theorem Absorbed.respond {msg : List Byte} {s : State} (h : Absorbed msg s) (r : Rsp) :
    Absorbed msg (respond r s) := by
  obtain ⟨hactive, hcount, hcursor, hfolded, hpending⟩ := h
  exact ⟨hactive, hcount, hcursor, hfolded, hpending⟩

theorem absorbed_nil_of_fresh {s : State} (hhash : s.hash = IV) (hcnt : s.cnt = 0) (hfill : s.fill = 0)
    (hphase : s.phase = .active) : Absorbed [] s :=
  absorbed_iff.mpr ⟨hphase, hcnt, hhash ▸ holdsFrom_nil hfill⟩

theorem Absorbed.absorbAll {msg : List Byte} {s : State} (h : Absorbed msg s) (data : List Byte) :
    Absorbed (msg ++ data) (absorbAll data s) := by
  obtain ⟨hactive, hcount, hholds⟩ := absorbed_iff.mp h
  obtain ⟨hphase, -⟩ := absorbAll_frame data s
  refine absorbed_iff.mpr ⟨hphase.trans hactive, ?_, hholds.absorbAll data⟩
  rw [absorbAll_cnt, hcount, List.length_append, BitVec.ofNat_add]

theorem Absorbed.digestView_finish {msg : List Byte} {s : State} (h : Absorbed msg s) :
    digestView (finish s) = some (sha256 msg) := by
  obtain ⟨-, hcount, hholds⟩ := absorbed_iff.mp h
  rw [Machine.digestView_finish, hholds.padAndCompress_hash hcount, sha256]

/-- 64 divides the 2^64 at which CNT wraps. -/
theorem Absorbed.inv {msg : List Byte} {s : State} (h : Absorbed msg s) : Inv s := by
  obtain ⟨hactive, hcount, hcursor, -, -⟩ := h
  refine ⟨by omega, fun _ => ?_, by simp [hactive]⟩
  rw [hcursor, hcount, BitVec.toNat_ofNat]
  omega

/-- Settles O34: the empty message, its growth under UPDATE, and FINAL on what is held. -/
theorem contextHoldsTheMessage : Obligations.ContextHoldsTheMessage := by
  refine ⟨fun s => absorbed_nil_of_fresh rfl rfl rfl rfl, fun s => ⟨_, exec_init s, ?_⟩,
    fun msg data s h => ⟨_, exec_update_of_active data h.active, (h.absorbAll data).respond _⟩,
    fun msg s h _ => ⟨_, exec_final_of_active h.active, h.digestView_finish⟩, fun msg s h => h.inv⟩
  exact (absorbed_nil_of_fresh rfl rfl rfl rfl).respond _

end Sys2Proof.Safety
end

section
/-! PROOFS. The constant tables as roots of primes (10_state.md R27, R28). -/

namespace Sys2Proof.Machine

/-- Settles O9: both tables are finite; the kernel finds each integer part and checks the bounds of its root. -/
theorem constantsAreRootsOfPrimes : Obligations.ConstantsAreRootsOfPrimes := by
  constructor
  · decide +kernel
  · decide +kernel

end Sys2Proof.Machine
end

section
/-! PROOFS. What one step does (20_memory.md R42): it runs the command that the transaction at the port decodes to
(30_encoding.md R58). -/

namespace Sys2Proof.Machine

theorem step_of_nil {s : State} (h : s.events = []) : step s = .next s := by
  simp only [step, takeEvent_of_nil s h]

theorem step_of_decode_ok {s : State} {tx : Transaction} {rest : List HostEvent} {i : Instr}
    (h : s.events = .command tx :: rest) (hd : decode tx = .ok i) : step s = exec i { s with events := rest } := by
  simp only [step, takeEvent_of_cons s _ rest h, hd]

theorem step_of_decode_error {s : State} {tx : Transaction} {rest : List HostEvent} {e : DecodeError}
    (h : s.events = .command tx :: rest) (hd : decode tx = .error e) : step s = .refused (.illFormed e) := by
  simp only [step, takeEvent_of_cons s _ rest h, hd]

theorem decodeTableWord_eq_some_iff (nbits w : Nat) (i : Instr) :
    decodeTableWord nbits w = some i ↔ decode (transactionOfWord nbits w) = .ok i := by
  rw [decodeTableWord]
  cases decode (transactionOfWord nbits w) <;> simp [Except.toOption]

theorem step_withFetchWord {nbits w : Nat} {i : Instr} (s : State) (h : decodeTableWord nbits w = some i) :
    step (s.withFetchWord nbits w) = exec i s :=
  step_of_decode_ok (present_events _ s) ((decodeTableWord_eq_some_iff nbits w i).mp h)

/-- Settles O40: the decoder's answer decides between the command and the refusal. -/
theorem stepRunsTheDecodedCommand : Obligations.StepRunsTheDecodedCommand :=
  ⟨fun _ _ _ _ => step_of_decode_ok, fun _ _ _ _ => step_of_decode_error, fun _ => step_of_nil,
    fun s _ _ _ => step_withFetchWord s⟩

end Sys2Proof.Machine
end

section
/-! PROOFS. Updates of the state that the engine's internal operations do not notice: made before or after them,
they give the same state. -/

namespace Sys2Proof.Machine

/-- `g` keeps what the internal operations read and may be made before or after each of their elementary writes. -/
structure Bystander (g : State → State) : Prop where
  keeps_fill : ∀ s, (g s).fill = s.fill
  keeps_cnt : ∀ s, (g s).cnt = s.cnt
  putByte : ∀ b s, putByte b (g s) = g (putByte b s)
  count : ∀ c s, { g s with cnt := c } = g { s with cnt := c }
  putLength : ∀ len s, putLength len (g s) = g (putLength len s)
  foldBlock : ∀ s, foldBlock (g s) = g (foldBlock s)

theorem absorb_of_room (b : Byte) {s : State} (h : (nextFill s.fill).val ≠ 64) :
    absorb b s = { putByte b s with cnt := s.cnt + 1 } := if_neg h

theorem absorb_of_full (b : Byte) {s : State} (h : (nextFill s.fill).val = 64) :
    absorb b s = foldBlock { putByte b s with cnt := s.cnt + 1 } := if_pos h

section
variable {g : State → State} (hg : Bystander g)
include hg

theorem Bystander.absorb (b : Byte) (s : State) : absorb b (g s) = g (absorb b s) := by
  have hcount : { Machine.putByte b (g s) with cnt := (g s).cnt + 1 } =
      g { Machine.putByte b s with cnt := s.cnt + 1 } := by rw [hg.putByte, hg.keeps_cnt, hg.count]
  by_cases hfull : (nextFill s.fill).val = 64
  · rw [absorb_of_full b hfull, absorb_of_full b (by rwa [hg.keeps_fill]), hcount, hg.foldBlock]
  · rw [absorb_of_room b hfull, absorb_of_room b (by rwa [hg.keeps_fill]), hcount]

theorem Bystander.absorbAll (data : List Byte) (s : State) : absorbAll data (g s) = g (absorbAll data s) := by
  induction data generalizing s with
  | nil => rfl
  | cons b data ih => rw [absorbAll_cons, hg.absorb, ih, absorbAll_cons]

theorem Bystander.putZeros (n : Nat) (s : State) : putZeros n (g s) = g (putZeros n s) := by
  induction n generalizing s with
  | zero => rfl
  | succ n ih => rw [Machine.putZeros, hg.putByte, ih, Machine.putZeros]

theorem Bystander.zeroFillTo (limit : Nat) (s : State) : zeroFillTo limit (g s) = g (zeroFillTo limit s) := by
  rw [Machine.zeroFillTo, hg.keeps_fill, hg.putZeros, Machine.zeroFillTo]

theorem Bystander.spillIfNoRoom (s : State) : spillIfNoRoom (g s) = g (spillIfNoRoom s) := by
  obtain hroom | hspill : s.fill.val ≤ 56 ∨ 56 < s.fill.val := by omega
  · rw [spillIfNoRoom_of_room hroom, spillIfNoRoom_of_room (by rwa [hg.keeps_fill])]
  · rw [spillIfNoRoom_of_spill hspill, spillIfNoRoom_of_spill (by rwa [hg.keeps_fill]), hg.zeroFillTo, hg.foldBlock]

theorem Bystander.padAndCompress (s : State) : padAndCompress (g s) = g (padAndCompress s) := by
  simp only [Machine.padAndCompress, hg.keeps_cnt, hg.putByte, hg.spillIfNoRoom, hg.zeroFillTo, hg.putLength,
    hg.foldBlock]

end

/-- `s` with the list `es` at its port. -/
def State.withEvents (es : List HostEvent) (s : State) : State := { s with events := es }

theorem bystander_withEvents (es : List HostEvent) : Bystander (State.withEvents es) where
  keeps_fill _ := rfl
  keeps_cnt _ := rfl
  putByte _ _ := rfl
  count _ _ := rfl
  putLength _ _ := rfl
  foldBlock s := by simp only [foldBlock, emptyBuffer, compressBuffer_eq, State.withEvents]

theorem finish_withEvents (es : List HostEvent) (s : State) :
    finish (s.withEvents es) = (finish s).withEvents es := by
  rw [finish, (bystander_withEvents es).padAndCompress, finish]
  simp only [respond, State.withEvents]

/-- A command reads nothing of what waits behind it. -/
theorem exec_withEvents {i : Instr} {s t : State} (es : List HostEvent) (h : exec i s = .next t) :
    exec i (s.withEvents es) = .next (t.withEvents es) := by
  have habsorb := (bystander_withEvents es).absorbAll
  obtain ⟨rfl, rfl⟩ | ⟨data, rfl, hactive, rfl⟩ | ⟨rfl, hactive, rfl⟩ | ⟨data, rfl, rfl⟩ | ⟨hi, hdone, rfl⟩ :=
    exec_cases h
  · rfl
  · rw [exec_update_of_active data (s := s.withEvents es) hactive, habsorb]
    rfl
  · rw [exec_final_of_active (s := s.withEvents es) hactive, finish_withEvents]
  · rw [exec_hash, ← finish_withEvents, ← habsorb]
    rfl
  · obtain ⟨data, rfl⟩ | rfl := hi
    · exact exec_update_of_done data (s := s.withEvents es) hdone
    · exact exec_final_of_done (s := s.withEvents es) hdone

end Sys2Proof.Machine
end

section
/-! PROOFS. A list of commands at the port runs to its end (20_memory.md R42, 70_reset_and_hazards.md R128). -/

namespace Sys2Proof.Machine

theorem decode_encode (i : Instr) : decode (encode i) = .ok i := by
  cases i <;> rfl

theorem exec_answers (i : Instr) (s : State) : ∃ t, exec i s = .next t := by
  cases i with
  | init => exact ⟨_, exec_init s⟩
  | hash data => exact ⟨_, exec_hash data s⟩
  | update data =>
    obtain hp | hp := phase_active_or_done s
    · exact ⟨_, exec_update_of_active data hp⟩
    · exact ⟨_, exec_update_of_done data hp⟩
  | final =>
    obtain hp | hp := phase_active_or_done s
    · exact ⟨_, exec_final_of_active hp⟩
    · exact ⟨_, exec_final_of_done hp⟩

theorem finish_port (s : State) :
    (finish s).events = s.events ∧ ∃ r, (finish s).responses = s.responses ++ [r] := by
  obtain ⟨-, -, -, hevents, -, -⟩ := padAndCompress_frame s
  exact ⟨by rw [finish_events, hevents], _, finish_appends_digest s⟩

/-- A command takes nothing more from the port and gives one response. -/
theorem exec_port {i : Instr} {s t : State} (h : exec i s = .next t) :
    t.events = s.events ∧ ∃ r, t.responses = s.responses ++ [r] := by
  obtain ⟨-, rfl⟩ | ⟨data, -, -, rfl⟩ | ⟨-, -, rfl⟩ | ⟨data, -, rfl⟩ | ⟨-, -, rfl⟩ := exec_cases h
  · exact ⟨rfl, _, rfl⟩
  · obtain ⟨-, -, hevents, hresponses⟩ := absorbAll_frame data s
    exact ⟨hevents, .ack, by rw [respond_responses, hresponses]⟩
  · exact finish_port s
  · obtain ⟨-, -, hevents, hresponses⟩ := absorbAll_frame data (initContext s)
    have hfinish := finish_port (absorbAll data (initContext s))
    rwa [hevents, hresponses] at hfinish
  · exact ⟨rfl, _, rfl⟩

end Sys2Proof.Machine

namespace Sys2Proof.Safety

open Sys2Proof.Machine

theorem run_succ_of_next {M : Host.Core} {s t : M.State} (n : Nat) (h : M.step s = .next t) :
    M.run (n + 1) s = M.run n t := by
  simp only [Host.Core.run, h]

theorem presenting_nil {s : State} (h : s.events = []) : presenting [] s = s := by
  rw [presenting, List.map_nil, ← h]

/-- The first command of the list runs, and the others wait. -/
theorem step_presenting_cons {i : Instr} {s t : State} (is : List Instr)
    (h : exec i (presenting [] s) = .next t) : step (presenting (i :: is) s) = .next (presenting is t) := by
  rw [step_of_decode_ok (s := presenting (i :: is) s) rfl (decode_encode i)]
  exact exec_withEvents (s := presenting [] s) _ h

/-- Settles O41, by induction on the list: its first command runs with the others at the port as it does alone. -/
theorem presentedCommandsRunToTheEnd : Obligations.PresentedCommandsRunToTheEnd := by
  intro is
  induction is with
  | nil => exact fun s => ⟨presenting [] s, rfl, rfl, rfl, rfl, step_of_nil rfl⟩
  | cons i is ih =>
    intro s
    obtain ⟨u, hu⟩ := exec_answers i (presenting [] s)
    obtain ⟨hevents, r, hresponses⟩ := exec_port hu
    obtain ⟨t, hrun, hall, hempty, hcount, hwait⟩ := ih u
    rw [presenting_nil hevents] at hall
    have hfirst : core.step (presenting (i :: is) s) = .next (presenting is u) := step_presenting_cons is hu
    refine ⟨t, (run_succ_of_next _ hfirst).trans hrun, ?_, hempty, ?_, hwait⟩
    · rw [runAll, runWith_cons_next is hu, ← hall, runAll]
    · simp only [hcount, hresponses, List.length_append, List.length_cons, List.length_nil, presenting]
      omega

end Sys2Proof.Safety
end

section
/-! PROOFS. What stands in BUF after FINAL: the last block of PAD, whatever stood there before
(40_streaming_hasher.md R69). -/

namespace Sys2Proof.Machine

/-- The zeros and the length field fill BUF up behind the residual. -/
theorem putLength_zeroFill_buf (len : Word64) (s : State) (h : s.fill.val ≤ 56) :
    (putLength len (zeroFillTo 56 s)).buf =
      blockOf (residualBytes s ++ zeros (56 - s.fill.val) ++ (bytesBe64 len).toList) := by
  have hend : s.fill.val + (zeros (56 - s.fill.val)).length = 56 := by rw [zeros_length]; omega
  rw [zeroFillTo_spec 56 s h (by omega), putLength_buf, List.append_assoc, ← memWrite_eq_blockOf, memWrite_append,
    hend]
  rw [List.length_append, bytesBe64_length]
  omega

theorem padAndCompress_buf (s : State) (h : s.fill.val < 64) :
    ((pad (residualBytes s) (bitLength s.cnt)).map blockOf).getLast? = some (padAndCompress s).buf := by
  have hlen := residualBytes_length s
  have hfill : (putByte Config.padMark s).fill.val = s.fill.val + 1 := nextFill_val s.fill h
  obtain hroom | hspill : s.fill.val ≤ 55 ∨ 56 ≤ s.fill.val := by omega
  · rw [pad_of_room _ _ (by omega), padAndCompress, spillIfNoRoom_of_room (by omega), foldBlock_buf,
      putLength_zeroFill_buf _ _ (by omega), residualBytes_putByte _ _ h, hfill, hlen, Nat.add_sub_add_right 55 1]
    rfl
  · rw [pad_of_spill _ _ (by omega), padAndCompress, spillIfNoRoom_of_spill (by omega), foldBlock_buf,
      putLength_zeroFill_buf _ _ (by simp), foldBlock_fill, residualBytes_of_fill_zero _ (foldBlock_fill _)]
    rfl

end Sys2Proof.Machine
end

section
/-! PROOFS. INIT, HASH and a refused command a second time (20_memory.md R38). -/

namespace Sys2Proof.Safety

open Sys2Proof.Machine

theorem misuse_iff (i : Instr) (s : State) :
    misuse i s = true ↔ s.phase = .done ∧ ((∃ data, i = .update data) ∨ i = .final) := by
  obtain hp | hp := phase_active_or_done s <;> cases i <;> simp [misuse, hp]

theorem exec_of_misuse {i : Instr} {s : State} (h : misuse i s = true) : exec i s =
    .next { s with err := true, responses := s.responses ++ [.error .misuseAfterFinal] } := by
  obtain ⟨hdone, ⟨data, rfl⟩ | rfl⟩ := (misuse_iff i s).mp h
  · exact exec_update_of_done data hdone
  · exact exec_final_of_done hdone

/-- The context of a message decides what FINAL leaves in every register but ERR. -/
theorem Absorbed.finish_registers {msg : List Byte} {s : State} (h : Absorbed msg s) :
    (finish s).hash = (wholeBlocks (padded msg)).foldl compress IV ∧ (finish s).fill = 0 ∧
      (finish s).cnt = BitVec.ofNat 64 msg.length ∧ (finish s).phase = .done ∧
      (wholeBlocks (padded msg)).getLast? = some (finish s).buf := by
  obtain ⟨-, hcount, hholds⟩ := absorbed_iff.mp h
  obtain ⟨hcnt, -⟩ := padAndCompress_frame s
  have hbuf := padAndCompress_buf s h.inv.fill_lt
  rw [hholds.pending, hcount, bitLength_ofNat] at hbuf
  refine ⟨?_, finish_fill_zero s, ?_, finish_phase s, ?_⟩
  · rw [finish_hash, hholds.padAndCompress_hash hcount]
  · rw [finish_cnt, hcnt, hcount]
  · rw [wholeBlocks_padded, List.getLast?_append, hbuf, finish_buf]
    rfl

theorem exec_hash_registers {data : List Byte} {s t : State} (h : exec (.hash data) s = .next t) :
    t.hash = (wholeBlocks (padded data)).foldl compress IV ∧ t.fill = 0 ∧ t.cnt = BitVec.ofNat 64 data.length ∧
      t.phase = .done ∧ t.err = false ∧ (wholeBlocks (padded data)).getLast? = some t.buf := by
  obtain rfl : finish (absorbAll data (initContext s)) = t := Host.Outcome.next.inj (exec_hash data s ▸ h)
  have habsorbed : Absorbed data (absorbAll data (initContext s)) :=
    (absorbed_nil_of_fresh (s := initContext s) rfl rfl rfl rfl).absorbAll data
  obtain ⟨hhash, hfill, hcnt, hphase, hbuf⟩ := habsorbed.finish_registers
  exact ⟨hhash, hfill, hcnt, hphase, by rw [finish_keeps_err, absorbAll_keeps_err, initContext_err], hbuf⟩

/-- Settles O43: HASH leaves what its payload decides; INIT and a refusal write the same values again. -/
theorem repeatedCommandsChangeNothing : Obligations.RepeatedCommandsChangeNothing := by
  rintro i s t u (rfl | ⟨data, rfl⟩ | hmisuse) ht hu
  · obtain rfl := Host.Outcome.next.inj ht
    obtain rfl := Host.Outcome.next.inj hu
    exact ⟨rfl, rfl, rfl, rfl, rfl, rfl⟩
  · obtain ⟨hhash, hfill, hcnt, hphase, herr, hbuf⟩ := exec_hash_registers ht
    obtain ⟨hhash', hfill', hcnt', hphase', herr', hbuf'⟩ := exec_hash_registers hu
    exact ⟨hhash'.trans hhash.symm, hfill'.trans hfill.symm, hcnt'.trans hcnt.symm, hphase'.trans hphase.symm,
      herr'.trans herr.symm, Option.some.inj (hbuf'.symm.trans hbuf)⟩
  · rw [exec_of_misuse hmisuse] at ht
    obtain rfl := Host.Outcome.next.inj ht
    rw [exec_of_misuse] at hu
    · obtain rfl := Host.Outcome.next.inj hu
      exact ⟨rfl, rfl, rfl, rfl, rfl, rfl⟩
    · exact hmisuse

end Sys2Proof.Safety
end

section
/-! PROOFS. Commands and responses on the wire (30_encoding.md R50 to R53, R58, R61). -/

namespace Sys2Proof.Machine

/-- Settles O1: each of the four opcodes has its arm in the decoder. -/
theorem commandWordsDecodeAsTabled : Obligations.CommandWordsDecodeAsTabled :=
  fun _ => ⟨rfl, rfl, rfl, rfl, rfl, rfl, rfl, rfl⟩

theorem wellFormed_encode (i : Instr) : (encode i).wellFormed = true := by
  cases i with
  | init => exact Laws.Encoding.init
  | update data => exact Laws.Encoding.update data
  | final => exact Laws.Encoding.final
  | hash data => exact Laws.Encoding.hash data

theorem takesNoPayload_iff (op : BitVec 2) : takesNoPayload op = true ↔ op = 0b00#2 ∨ op = 0b10#2 := by
  simp [takesNoPayload]

theorem wellFormed_eq_false_iff (tx : Transaction) :
    tx.wellFormed = false ↔ (tx.op = 0b00#2 ∨ tx.op = 0b10#2) ∧ tx.payload ≠ [] := by
  rw [← takesNoPayload_iff]
  simp [Transaction.wellFormed]

/-- A command without payload is INIT or FINAL by its opcode, the other two take any payload. -/
theorem exists_encode_of_wellFormed {tx : Transaction} (h : tx.wellFormed = true) : ∃ i, encode i = tx := by
  obtain ⟨op, payload⟩ := tx
  obtain rfl | rfl | rfl | rfl := opcode_cases op
  · obtain rfl : payload = [] := List.isEmpty_iff.mp h
    exact ⟨.init, rfl⟩
  · exact ⟨.update payload, rfl⟩
  · obtain rfl : payload = [] := List.isEmpty_iff.mp h
    exact ⟨.final, rfl⟩
  · exact ⟨.hash payload, rfl⟩

/-- Settles O2: what decodes is an encoding, and the encodings are the well-formed transactions. -/
theorem decodeAndEncodeAgree : Obligations.DecodeAndEncodeAgree := by
  refine ⟨decode_encode, fun tx i => encode_of_decode, fun tx => ⟨?_, fun h => ?_⟩, wellFormed_eq_false_iff⟩
  · rintro ⟨i, hdecode⟩
    rw [← encode_of_decode hdecode]
    exact wellFormed_encode i
  · obtain ⟨i, rfl⟩ := exists_encode_of_wellFormed h
    exact ⟨i, decode_encode i⟩

theorem decodeRsp_digest (payload : List Byte) (h : payload.length = 32) :
    decodeRsp ⟨0b01#2, payload⟩ = .ok (.digest ⟨payload.toArray, h⟩) := dif_pos h

theorem decodeRsp_digest_of_length_ne {payload : List Byte} (h : payload.length ≠ 32) :
    decodeRsp ⟨0b01#2, payload⟩ = .error .wrongLength := dif_neg h

theorem decodeRsp_error (b : Byte) : decodeRsp ⟨0b10#2, [b]⟩ =
    if b = Cause.misuseAfterFinal.code then .ok (.error .misuseAfterFinal) else .error .unassignedCause := rfl

theorem decodeRsp_status_three (payload : List Byte) :
    decodeRsp ⟨0b11#2, payload⟩ = .error .neverProduced := rfl

theorem decodeRsp_encodeRsp (r : Rsp) : decodeRsp (encodeRsp r) = .ok r := by
  cases r with
  | ack => rfl
  | digest d => exact decodeRsp_digest d.toList Vector.length_toList
  | error cause =>
    cases cause
    rfl

/-- Of each status the reader accepts only the payloads that the encoder gives it. -/
theorem encodeRsp_of_decodeRsp {w : WireRsp} {r : Rsp} (h : decodeRsp w = .ok r) : encodeRsp r = w := by
  obtain ⟨st, payload⟩ := w
  obtain rfl | rfl | rfl | rfl := opcode_cases st
  · cases payload with
    | nil => rw [← Except.ok.inj h, encodeRsp]
    | cons b bs => cases h
  · by_cases hlen : payload.length = 32
    · rw [decodeRsp_digest payload hlen] at h
      rw [← Except.ok.inj h, encodeRsp, Vector.toList_mk]
    · rw [decodeRsp_digest_of_length_ne hlen] at h
      cases h
  · match payload with
    | [] | _ :: _ :: _ => cases h
    | [b] =>
      by_cases hcode : b = Cause.misuseAfterFinal.code
      · rw [decodeRsp_error, if_pos hcode] at h
        rw [← Except.ok.inj h, encodeRsp, hcode]
      · rw [decodeRsp_error, if_neg hcode] at h
        cases h
  · cases h

/-- Settles O3: by the status, whose four values have their own payloads. -/
theorem responsesReadBack : Obligations.ResponsesReadBack := by
  refine ⟨decodeRsp_encodeRsp, fun w r => encodeRsp_of_decodeRsp, ?_⟩
  rintro ⟨st, payload⟩ r rfl h
  cases (decodeRsp_status_three payload).symm.trans h

end Sys2Proof.Machine
end

section
/-! PROOFS. The digest as bytes (30_encoding.md R60). -/

namespace Sys2Proof.Machine

theorem bytesBe32_length (w : Word) : (bytesBe32 w).toList.length = 4 := Vector.length_toList

/-- SER is the words' own bytes, in order. -/
theorem serialise_toList (hs : HashState) :
    (serialise hs).toList = hs.toList.flatMap fun w => (bytesBe32 w).toList := by
  match hs with
  | ⟨⟨[a, b, c, d, e, f, g, h]⟩, _⟩ =>
    change Vector.toList (n := 4 + 4 + 4 + 4 + 4 + 4 + 4 + 4) (_ ++ _ ++ _ ++ _ ++ _ ++ _ ++ _ ++ _) = _
    simp only [Vector.toList_append]
    simp

/-- In a concatenation of pieces of one length, piece `i` begins at `n * i`. -/
theorem flatMap_getElem? {α β : Type} {f : α → List β} {n : Nat} (hf : ∀ x, (f x).length = n) (xs : List α)
    (i k : Nat) (hk : k < n) : (xs.flatMap f)[n * i + k]? = xs[i]?.bind fun x => (f x)[k]? := by
  induction xs generalizing i with
  | nil => simp
  | cons x xs ih =>
    rw [List.flatMap_cons]
    cases i with
    | zero =>
      rw [Nat.mul_zero, Nat.zero_add, List.getElem?_append_left (by rwa [hf])]
      rfl
    | succ i =>
      rw [List.getElem?_cons_succ, ← ih, Nat.mul_succ, Nat.add_right_comm, List.getElem?_append_right,
        hf, Nat.add_sub_cancel]
      rw [hf]
      exact Nat.le_add_left n _

theorem serialise_getElem (hs : HashState) (i k : Nat) (hi : i < 8) (hk : k < 4) :
    (serialise hs)[4 * i + k] = (bytesBe32 hs[i])[k] := by
  have hbyte := flatMap_getElem? bytesBe32_length hs.toList i k hk
  rw [← serialise_toList] at hbyte
  simp only [Vector.getElem?_toList] at hbyte
  rw [Vector.getElem?_eq_getElem (by omega), Vector.getElem?_eq_getElem hi, Option.bind_some,
    Vector.getElem?_eq_getElem hk] at hbyte
  exact Option.some.inj hbyte

/-- Settles O7: piece `i` of the serialisation is word `i`, cut into its bytes. -/
theorem digestBytesInStateOrder : Obligations.DigestBytesInStateOrder := by
  intro hs i k
  rw [serialise_getElem hs i k i.isLt k.isLt, bytesBe32_getElem _ _ k.isLt, Fin.getElem_fin]

end Sys2Proof.Machine
end

section
/-! PROOFS. Which command gives which response and leaves which PHASE (30_encoding.md R59,
40_streaming_hasher.md R73). -/

namespace Sys2Proof.Machine

theorem absorbAll_ack (data : List Byte) (s : State) :
    (respond .ack (absorbAll data s)).responses = s.responses ++ [.ack] ∧
      (respond .ack (absorbAll data s)).phase = s.phase := by
  obtain ⟨hphase, -, -, hresponses⟩ := absorbAll_frame data s
  exact ⟨by rw [respond_responses, hresponses], hphase⟩

/-- Settles O25: the responses and PHASE of each way in which a command ends. -/
theorem responsesAndPhasesPaired : Obligations.ResponsesAndPhasesPaired := by
  intro s data
  refine ⟨⟨_, exec_init s, rfl, rfl⟩, fun hactive => ?_, fun hdone => ?_, fun hactive => ?_, fun hdone => ?_, ?_⟩
  · obtain ⟨hresponses, hphase⟩ := absorbAll_ack data s
    exact ⟨_, exec_update_of_active data hactive, hresponses, hphase.trans hactive⟩
  · exact ⟨_, exec_update_of_done data hdone, rfl, hdone⟩
  · exact ⟨_, _, exec_final_of_active hactive, finish_appends_digest s, finish_phase s⟩
  · exact ⟨_, exec_final_of_done hdone, rfl, hdone⟩
  · obtain ⟨-, -, -, hresponses⟩ := absorbAll_frame data (initContext s)
    have hdigest := finish_appends_digest (absorbAll data (initContext s))
    rw [hresponses, initContext_responses] at hdigest
    exact ⟨_, _, exec_hash data s, hdigest, finish_phase _⟩

end Sys2Proof.Machine
end

section
/-! PROOFS. The first 16 words of a schedule are the block's (41_message_scheduler.md R79, R82). -/

namespace Sys2Proof.Machine

/-- What each step of a fold takes from one index to the next holds at its end. -/
theorem fold_invariant {α : Type} (P : Nat → α → Prop) (n : Nat) (f : (i : Nat) → i < n → α → α) (a : α)
    (hstart : P 0 a) (hstep : ∀ i h x, P i x → P (i + 1) (f i h x)) : P n (n.fold f a) :=
  fold_related (fun i x _ => P i x) n f f a a hstart fun i h x _ => hstep i h x

/-- The first `n` of the 16 words that the block load writes are in `w`. -/
def LoadedBelow (buf : Block) (n : Nat) (w : Schedule) : Prop :=
  ∀ t (ht : t < 16), t < n → w[t] = memReadWord buf ⟨t, ht⟩

theorem LoadedBelow.set {buf : Block} {n : Nat} {w : Schedule} (h : LoadedBelow buf n w) (hn : n < 16) :
    LoadedBelow buf (n + 1) (w.set n (memReadWord buf ⟨n, hn⟩)) := by
  intro t ht htn
  rw [Vector.getElem_set]
  split
  · subst t
    rfl
  · exact h t ht (by omega)

/-- The block load writes word `t` of the block to W[t] (R79). -/
theorem loadBlock_getElem (buf : Block) (w : Schedule) (t : Nat) (ht : t < 16) :
    (loadBlock buf w)[t] = memReadWord buf ⟨t, ht⟩ :=
  fold_invariant (LoadedBelow buf) 16 _ w (fun _ _ h => absurd h (Nat.not_lt_zero _)) (fun _ hi _ h => h.set hi)
    t ht ht

/-- The recurrence writes no word below W[16] (R82). -/
theorem expandSchedule_getElem_of_lt (w : Schedule) (t : Nat) (ht : t < 16) : (expandSchedule w)[t] = w[t] := by
  refine fold_invariant (fun _ (x : Schedule) => x[t] = w[t]) 48 _ w rfl fun i hi x ih => ?_
  rw [Vector.getElem_set_ne _ _ (by omega), ih]

theorem sched_getElem_of_lt (block : Block) (t : Nat) (ht : t < 16) :
    (sched block)[t] = memReadWord block ⟨t, ht⟩ := by
  rw [sched, expandSchedule_getElem_of_lt _ t ht, loadBlock_getElem _ _ t ht]

theorem blockOf_getElem (bytes : List Byte) (k : Nat) (hk : k < 64) : (blockOf bytes)[k] = bytes.getD k 0 := by
  rw [blockOf, Vector.getElem_ofFn]

/-- A schedule word below W[16] is four bytes of the block's byte sequence. -/
theorem sched_blockOf_getElem (bytes : List Byte) (t : Nat) (ht : t < 16) : (sched (blockOf bytes))[t] =
    be32 (bytes.getD (4 * t) 0) (bytes.getD (4 * t + 1) 0) (bytes.getD (4 * t + 2) 0)
      (bytes.getD (4 * t + 3) 0) := by
  rw [sched_getElem_of_lt _ t ht, memReadWord, blockOf_getElem, blockOf_getElem, blockOf_getElem, blockOf_getElem]

end Sys2Proof.Machine
end

section
/-! PROOFS. The final blocks byte by byte (30_encoding.md R55, R56). -/

namespace Sys2Proof.Machine

theorem getD_append_eq_ite (front back : List Byte) (k : Nat) : (front ++ back).getD k 0 =
    if k < front.length then front.getD k 0 else back.getD (k - front.length) 0 := by
  split
  · exact List.getD_append _ _ _ _ ‹_›
  · exact List.getD_append_right _ _ _ _ (by omega)

theorem zeros_getD (n k : Nat) : (zeros n).getD k 0 = 0 := by
  obtain hlt | hle := Nat.lt_or_ge k n
  · exact List.getD_replicate _ hlt
  · exact List.getD_eq_default _ _ (by rwa [zeros_length])

/-- The residual, the marker behind it, and zeros as far as one looks. -/
theorem marked_getD (res : List Byte) (n k : Nat) : (res ++ [Config.padMark] ++ zeros n).getD k 0 =
    if k < res.length then res.getD k 0 else if k = res.length then 0x80 else 0x00 := by
  rw [List.append_assoc, getD_append_eq_ite]
  obtain hres | rfl | hzero := Nat.lt_trichotomy k res.length
  · rw [if_pos hres, if_pos hres]
  · simp
  · rw [if_neg (by omega), if_neg (by omega), if_neg (by omega), List.singleton_append,
      show k - res.length = k - res.length - 1 + 1 by omega, List.getD_cons_succ, zeros_getD]

theorem marked_length (res : List Byte) (n : Nat) :
    (res ++ [Config.padMark] ++ zeros n).length = res.length + 1 + n := by
  rw [List.length_append, List.length_append, List.length_singleton, zeros_length]

/-- Settles O16: the layout with room for the length, and the one in which it spills. -/
theorem paddingLayouts : Obligations.PaddingLayouts := by
  intro res len hres
  have hlength := length_of_mem_pad (len := len) (Nat.lt_succ_of_le hres)
  refine ⟨fun hroom => ?_, fun hspill => ?_⟩
  · rw [pad_of_room res len hroom] at hlength ⊢
    refine ⟨_, rfl, hlength _ (by simp), fun k hk => ?_⟩
    rw [getD_append_eq_ite, marked_getD, marked_length, show res.length + 1 + (55 - res.length) = 56 by omega]
    by_cases hk56 : k < 56
    · simp only [if_pos hk56]
    · rw [if_neg hk56, if_neg (by omega), if_neg (by omega), if_neg hk56]
  · rw [pad_of_spill res len hspill] at hlength ⊢
    refine ⟨_, _, rfl, hlength _ (by simp), hlength _ (by simp), fun k _ => marked_getD res _ k, fun k _ => ?_⟩
    rw [getD_append_eq_ite, zeros_getD, zeros_length]

/-- Both layouts end in the length field, from offset 56 on. -/
theorem pad_getLast? (res : List Byte) (len : Word64) (h : res.length ≤ 63) : ∃ front : List Byte,
    front.length = 56 ∧ (pad res len).getLast? = some (front ++ (bytesBe64 len).toList) := by
  obtain hroom | hspill : res.length ≤ 55 ∨ 56 ≤ res.length := by omega
  · refine ⟨res ++ [Config.padMark] ++ zeros (55 - res.length), ?_, ?_⟩
    · rw [marked_length]
      omega
    · rw [pad_of_room res len hroom, List.getLast?_singleton]
  · refine ⟨zeros 56, zeros_length 56, ?_⟩
    rw [pad_of_spill res len hspill, List.getLast?_cons_cons, List.getLast?_singleton]

/-- Behind 56 bytes, byte `i` of the length field stands at offset 56 + i. -/
theorem lengthField_getD {front : List Byte} (h : front.length = 56) (len : Word64) (i : Nat) (hi : i < 8) :
    (front ++ (bytesBe64 len).toList).getD (56 + i) 0 = len.extractLsb' (56 - 8 * i) 8 := by
  rw [← bytesBe64_getElem len i hi, List.getD_append_right _ _ _ _ (by omega), h, Nat.add_sub_cancel_left,
    List.getD_eq_getElem _ _ (by rw [bytesBe64_length]; exact hi), Vector.getElem_toList]

/-- Four adjacent bytes of a 64-bit value join to the word they were cut from. -/
theorem be32_extractLsb' (v : Word64) (start : Nat) :
    be32 (v.extractLsb' (start + 24) 8) (v.extractLsb' (start + 16) 8) (v.extractLsb' (start + 8) 8)
      (v.extractLsb' start 8) = v.extractLsb' start 32 := by
  rw [be32, BitVec.extractLsb'_append_extractLsb'_eq_extractLsb' (show start + 24 = start + 16 + 8 from rfl),
    BitVec.extractLsb'_append_extractLsb'_eq_extractLsb' (show start + 16 = start + 8 + 8 from rfl),
    BitVec.extractLsb'_append_extractLsb'_eq_extractLsb' (show start + 8 = start + 8 from rfl)]

/-- Four bytes of the length field, from its byte `i` on, are the word that begins 8i bits below the top of L. -/
theorem be32_of_lengthField {last : List Byte} {len : Word64}
    (h : ∀ i, i < 8 → last.getD (56 + i) 0 = len.extractLsb' (56 - 8 * i) 8) (i : Nat) (hi : i ≤ 4) :
    be32 (last.getD (56 + i) 0) (last.getD (56 + (i + 1)) 0) (last.getD (56 + (i + 2)) 0)
      (last.getD (56 + (i + 3)) 0) = len.extractLsb' (32 - 8 * i) 32 := by
  rw [← be32_extractLsb', h i (by omega), h (i + 1) (by omega), h (i + 2) (by omega), h (i + 3) (by omega),
    show 56 - 8 * i = 32 - 8 * i + 24 by omega, show 56 - 8 * (i + 1) = 32 - 8 * i + 16 by omega,
    show 56 - 8 * (i + 2) = 32 - 8 * i + 8 by omega, show 56 - 8 * (i + 3) = 32 - 8 * i by omega]

/-- Settles O17: the length field's bytes, and the two words they make in the schedule. -/
theorem lengthFieldOfLastBlock : Obligations.LengthFieldOfLastBlock := by
  intro res len hres
  obtain ⟨front, hfront, hlast⟩ := pad_getLast? res len hres
  have hbytes := lengthField_getD hfront len
  refine ⟨_, hlast, fun i => hbytes i i.isLt, ?_, ?_⟩
  · rw [sched_blockOf_getElem _ 14 (by omega)]
    exact be32_of_lengthField hbytes 0 (by omega)
  · rw [sched_blockOf_getElem _ 15 (by omega)]
    exact be32_of_lengthField hbytes 4 (by omega)

end Sys2Proof.Machine
end

section
/-! PROOFS. The lines of a script (30_encoding.md R63, R64). -/

namespace Sys2Proof.Machine.Script

theorem payload_pair (p q : Part) : payload [p, q] = p.bytes ++ q.bytes := by
  rw [payload, List.flatMap_cons, List.flatMap_singleton]

/-- Settles O4: a line's event is its command's encoding, over the concatenated parts. -/
theorem scriptLinesStandForCommands : Obligations.ScriptLinesStandForCommands := by
  intro p q b n
  rw [← payload_pair]
  exact ⟨rfl, rfl, rfl, rfl, rfl, rfl, rfl⟩

end Sys2Proof.Machine.Script
end

section
/-! PROOFS. INIT (40_streaming_hasher.md R66), and ABSORB of one byte (R67). -/

namespace Sys2Proof.Machine

theorem initContext_respond_initContext (r : Rsp) (s : State) :
    initContext (respond r (initContext s)) = respond r (initContext s) := rfl

theorem initContext_reset : initContext State.reset = State.reset := rfl

/-- Settles O18: INIT writes the same constants whatever it finds, so a second INIT finds them written. -/
theorem initGivesFreshContext : Obligations.InitGivesFreshContext := by
  refine ⟨fun s => ⟨_, exec_init s, rfl, rfl, rfl, rfl, rfl, rfl, rfl, rfl, rfl, rfl, rfl, ?_⟩, ?_⟩
  · rw [exec_init, initContext_respond_initContext]
  · rw [exec_init, initContext_reset]

theorem absorb_of_fill_lt (b : Byte) {s : State} (h : s.fill.val < 63) :
    absorb b s = { putByte b s with cnt := s.cnt + 1 } :=
  absorb_of_room b (by rw [nextFill_val _ (by omega)]; omega)

theorem absorb_of_fill_eq (b : Byte) {s : State} (h : s.fill.val = 63) :
    absorb b s = foldBlock { putByte b s with cnt := s.cnt + 1 } :=
  absorb_of_full b (by rw [nextFill_val _ (by omega)]; omega)

theorem absorb_buf (b : Byte) {s : State} (hf : s.fill.val < 64) : (absorb b s).buf = s.buf.set s.fill.val b := by
  rw [← memWrite_singleton s.buf _ b hf]
  obtain ⟨h, -⟩ | ⟨h, -⟩ := absorb_cases b s
  · rw [h, putByte_buf]
  · rw [h, foldBlock_buf, putByte_buf]

theorem absorb_draws (b : Byte) {s : State} (hf : s.fill.val < 64) :
    (absorb b s).draws = s.draws + (s.fill.val + 1) / 64 := by
  obtain hroom | hlast : s.fill.val < 63 ∨ s.fill.val = 63 := by omega
  · rw [absorb_of_fill_lt b hroom, putByte_draws, Nat.div_eq_of_lt (by omega), Nat.add_zero]
  · rw [absorb_of_fill_eq b hlast, foldBlock_draws, putByte_draws, hlast]

theorem absorb_hash_of_fill_eq (b : Byte) {s : State} (h : s.fill.val = 63) :
    (absorb b s).hash = compress s.hash (s.buf.set s.fill.val b) := by
  rw [absorb_of_fill_eq b h, foldBlock_hash, compressBuffer_hash, putByte_hash, putByte_buf,
    memWrite_singleton _ _ _ (by omega)]

/-- Settles O19: the frame of ABSORB, and its two cases by FILL. -/
theorem absorbTakesOneByte : Obligations.AbsorbTakesOneByte := by
  intro b s hf
  obtain ⟨hphase, herr, hevents, hresponses⟩ := absorb_frame b s
  refine ⟨absorb_buf b hf, absorb_cnt b s, hphase, herr, hevents, hresponses, fun hroom => ?_, fun hlast => ?_⟩
  · rw [absorb_of_fill_lt b hroom]
    exact ⟨nextFill_val _ hf, rfl, rfl, rfl⟩
  · refine ⟨?_, absorb_hash_of_fill_eq b hlast, ?_⟩
    · rw [absorb_of_fill_eq b hlast, foldBlock_fill]
    · rw [absorb_draws b hf, hlast]

end Sys2Proof.Machine
end

section
/-! PROOFS. UPDATE in closed form and its frame (40_streaming_hasher.md R68). -/

namespace Sys2Proof.Machine

theorem absorbAll_draws (data : List Byte) {s : State} (hf : s.fill.val < 64) :
    (absorbAll data s).draws = s.draws + (s.fill.val + data.length) / 64 := by
  induction data generalizing s with
  | nil => simp [Nat.div_eq_of_lt hf]
  | cons b data ih =>
    have hfill := absorb_fill_val b s hf
    rw [absorbAll_cons, ih (by omega), absorb_draws b hf, hfill, List.length_cons]
    omega

/-- No block completes, so no compression touches the working storage. -/
theorem absorbAll_scratch (data : List Byte) {s : State} (h : s.fill.val + data.length < 64) :
    (absorbAll data s).scratch = s.scratch := by
  induction data generalizing s with
  | nil => rfl
  | cons b data ih =>
    rw [List.length_cons] at h
    have hfill := absorb_fill_val b s (by omega)
    rw [absorbAll_cons]
    obtain hroom | hlast : s.fill.val < 63 ∨ s.fill.val = 63 := by omega
    · rw [ih (by omega), absorb_of_fill_lt b hroom, putByte_scratch]
    · omega

/-- Byte `i` of the payload goes to index FILL + i, around the buffer; the other indexes keep their bytes. -/
theorem absorbAll_buf_getElem_of_ne (data : List Byte) {s : State} (hf : s.fill.val < 64) (k : Nat) (hk : k < 64)
    (h : ∀ i, i < data.length → (s.fill.val + i) % 64 ≠ k) : (absorbAll data s).buf[k] = s.buf[k] := by
  induction data generalizing s with
  | nil => rfl
  | cons b data ih =>
    have hfill := absorb_fill_val b s hf
    have hhead : s.fill.val ≠ k := by simpa [Nat.mod_eq_of_lt hf] using h 0 (by simp)
    have htail (i : Nat) (hi : i < data.length) : ((absorb b s).fill.val + i) % 64 ≠ k := by
      have := h (i + 1) (by simpa using hi)
      omega
    rw [absorbAll_cons, ih (by omega) htail]
    simp only [absorb_buf b hf]
    exact Vector.getElem_set_ne _ _ hhead

/-- A state holds its own residual since its own hash state. -/
theorem holdsFrom_residualBytes {s : State} (hf : s.fill.val < 64) : HoldsFrom s.hash (residualBytes s) s := by
  have hlen := residualBytes_length s
  refine ⟨by omega, ?_, ?_⟩
  · rw [wholeBlocks_of_lt _ (by omega), List.foldl_nil]
  · rw [hlen, Nat.div_eq_of_lt hf, Nat.mul_zero, List.drop_zero]

/-- Settles O20: a state holds its own residual, and ABSORB appends the payload to what is held. -/
theorem updateAbsorbsItsPayload : Obligations.UpdateAbsorbsItsPayload := by
  refine ⟨fun data s hactive hf => ?_, fun s hactive => exec_update_of_active [] hactive,
    fun data s hdone => exec_update_of_done data hdone⟩
  have hlen : (residualBytes s ++ data).length = s.fill.val + data.length := by
    rw [List.length_append, residualBytes_length]
  obtain ⟨-, hfolded, hpending⟩ := (holdsFrom_residualBytes hf).absorbAll data
  rw [wholeBlocks, hlen] at hfolded
  rw [hlen] at hpending
  obtain ⟨hphase, herr, hevents, -⟩ := absorbAll_frame data s
  obtain ⟨hresponses, -⟩ := absorbAll_ack data s
  exact ⟨_, exec_update_of_active data hactive, absorbAll_cnt data s, hfolded, absorbAll_fill_val data s hf, hpending,
    absorbAll_draws data hf, hphase, herr, hevents, hresponses, absorbAll_scratch data,
    fun k => absorbAll_buf_getElem_of_ne data hf k k.isLt⟩

end Sys2Proof.Machine
end

section
/-! PROOFS. FINAL (40_streaming_hasher.md R69, R70): how many blocks the padding folds, and what it answers. -/

namespace Sys2Proof.Machine

theorem pad_length (res : List Byte) (len : Word64) :
    (pad res len).length = if res.length ≤ 55 then 1 else 2 := by
  obtain hroom | hspill : res.length ≤ 55 ∨ 56 ≤ res.length := by omega
  · rw [pad_of_room res len hroom, if_pos hroom, List.length_singleton]
  · rw [pad_of_spill res len hspill, if_neg (by omega), List.length_cons, List.length_singleton]

theorem zeroFillTo_draws (limit : Nat) (s : State) : (zeroFillTo limit s).draws = s.draws := by
  obtain ⟨buf, fill, h⟩ := putZeros_frame (limit - s.fill.val) s
  rw [zeroFillTo, h]

theorem padAndCompress_draws {s : State} (h : s.fill.val < 64) :
    (padAndCompress s).draws = s.draws + if s.fill.val ≤ 55 then 1 else 2 := by
  have hfill : (putByte Config.padMark s).fill.val = s.fill.val + 1 := nextFill_val s.fill h
  rw [padAndCompress, foldBlock_draws, putLength_draws, zeroFillTo_draws]
  obtain hroom | hspill : s.fill.val ≤ 55 ∨ 56 ≤ s.fill.val := by omega
  · rw [spillIfNoRoom_of_room (by omega), putByte_draws, if_pos hroom]
  · rw [spillIfNoRoom_of_spill (by omega), foldBlock_draws, zeroFillTo_draws, putByte_draws, if_neg (by omega)]

theorem finish_answers (s : State) :
    (finish s).responses = s.responses ++ [Rsp.digest (serialise (finish s).hash)] := by
  rw [finish_appends_digest, finish_hash]

/-- Settles O21: the padding in place folds the blocks of PAD, leaves the last of them in BUF, and nothing else
moves but FILL and PHASE. -/
theorem finalPadsAndAnswersDigest : Obligations.FinalPadsAndAnswersDigest := by
  refine ⟨fun s hactive hf => ?_, fun s hdone => exec_final_of_done hdone⟩
  have hcount : ((pad (residualBytes s) (bitLength s.cnt)).map blockOf).length =
      if s.fill.val ≤ 55 then 1 else 2 := by
    rw [List.length_map, pad_length, residualBytes_length]
  obtain ⟨hcnt, -, -, hevents, -, -⟩ := padAndCompress_frame s
  refine ⟨hcount, _, exec_final_of_active hactive, ?_, ?_, finish_fill_zero s, ?_, finish_phase s,
    finish_keeps_err s, ?_, ?_, finish_answers s, ?_⟩
  · rw [finish_hash, padAndCompress_hash s hf]
  · rw [finish_buf, padAndCompress_buf s hf]
  · rw [finish_cnt, hcnt]
  · rw [finish_events, hevents]
  · rw [finish_draws, padAndCompress_draws hf, hcount]
  · rw [digestView_finish, finish_hash]

end Sys2Proof.Machine
end

section
/-! PROOFS. A message streamed in chunks: the state at its end, and its answers (40_streaming_hasher.md R72, R75,
R77). -/

namespace Sys2Proof.Machine

/-- `s` with the list `rs` of responses given. -/
def State.withResponses (rs : List Rsp) (s : State) : State := { s with responses := rs }

theorem bystander_withResponses (rs : List Rsp) : Bystander (State.withResponses rs) where
  keeps_fill _ := rfl
  keeps_cnt _ := rfl
  putByte _ _ := rfl
  count _ _ := rfl
  putLength _ _ := rfl
  foldBlock s := by simp only [foldBlock, emptyBuffer, compressBuffer_eq, State.withResponses]

theorem respond_eq_withResponses (r : Rsp) (s : State) :
    respond r s = s.withResponses (s.responses ++ [r]) := rfl

theorem withResponses_withResponses (rs rs' : List Rsp) (s : State) :
    (s.withResponses rs).withResponses rs' = s.withResponses rs' := rfl

@[simp] theorem withResponses_responses (rs : List Rsp) (s : State) : (s.withResponses rs).responses = rs := rfl

@[simp] theorem withResponses_phase (rs : List Rsp) (s : State) : (s.withResponses rs).phase = s.phase := rfl

@[simp] theorem withResponses_draws (rs : List Rsp) (s : State) : (s.withResponses rs).draws = s.draws := rfl

/-- The list of responses put back in its place. -/
theorem responses_put_back {rs : List Rsp} {s : State} (h : s.responses = rs) (rs' : List Rsp) :
    s = { s.withResponses rs' with responses := rs } := by
  subst h
  rfl

theorem absorbAll_withResponses (data : List Byte) (rs : List Rsp) (s : State) :
    absorbAll data (s.withResponses rs) = (absorbAll data s).withResponses rs :=
  (bystander_withResponses rs).absorbAll data s

/-- FINAL appends the digest to whatever list of responses it finds. -/
theorem finish_withResponses (rs : List Rsp) (s : State) :
    finish (s.withResponses rs) = (finish s).withResponses (rs ++ [Rsp.digest (serialise (finish s).hash)]) := by
  rw [finish_hash, finish, (bystander_withResponses rs).padAndCompress, finish]
  simp only [respond, State.withResponses]

end Sys2Proof.Machine

namespace Sys2Proof.Safety

open Sys2Proof.Machine

/-- UPDATEs absorb the concatenation of their payloads, and give an ACK each. -/
theorem runAll_updates (chunks : List (List Byte)) (is : List Instr) {s : State} (h : s.phase = .active) :
    runAll (chunks.map Instr.update ++ is) s =
      runAll is ((absorbAll chunks.flatten s).withResponses (s.responses ++ chunks.map fun _ => Rsp.ack)) := by
  induction chunks generalizing s with
  | nil =>
    rw [List.flatten_nil, absorbAll_nil, List.map_nil, List.map_nil, List.append_nil]
    rfl
  | cons chunk chunks ih =>
    obtain ⟨hresponses, hphase⟩ := absorbAll_ack chunk s
    rw [List.map_cons, List.cons_append, runAll, runWith_cons_next _ (exec_update_of_active chunk h), ← runAll,
      ih (hphase.trans h), hresponses, respond_eq_withResponses, absorbAll_withResponses,
      withResponses_withResponses, ← absorbAll_append, ← List.flatten_cons, List.append_assoc]
    rfl

/-- A streamed message ends as FINAL after one UPDATE with all of it ends, but for the ACKs. -/
theorem runAll_streamed (chunks : List (List Byte)) {s : State} (h : s.phase = .active) :
    runAll (streamed chunks) s = .next ((finish (absorbAll chunks.flatten s)).withResponses
      (s.responses ++ (chunks.map (fun _ => Rsp.ack) ++
        [Rsp.digest (serialise (finish (absorbAll chunks.flatten s)).hash)]))) := by
  obtain ⟨hphase, -⟩ := absorbAll_frame chunks.flatten s
  rw [streamed, runAll_updates chunks _ h, runAll,
    runWith_cons_next [] (exec_final_of_active ((withResponses_phase _ _).trans (hphase.trans h))), runWith_nil,
    finish_withResponses, List.append_assoc]

/-- After INIT a streamed message ends as HASH of all of it ends, but for the ACKs. -/
theorem runAll_init_streamed (chunks : List (List Byte)) (s : State) :
    runAll (Instr.init :: streamed chunks) s = .next ((finish (absorbAll chunks.flatten (initContext s))).withResponses
      (s.responses ++ ([Rsp.ack] ++ chunks.map (fun _ => Rsp.ack) ++
        [Rsp.digest (serialise (finish (absorbAll chunks.flatten (initContext s))).hash)]))) := by
  have hactive : (respond .ack (initContext s)).phase = .active := rfl
  rw [runAll, runWith_cons_next _ (exec_init s), ← runAll, runAll_streamed chunks hactive, respond_responses,
    respond_eq_withResponses, absorbAll_withResponses, finish_withResponses, withResponses_withResponses,
    initContext_responses, List.append_assoc, List.append_assoc]
  rfl

theorem finish_absorbAll_initContext_responses (data : List Byte) (s : State) :
    (finish (absorbAll data (initContext s))).responses =
      s.responses ++ [Rsp.digest (serialise (finish (absorbAll data (initContext s))).hash)] := by
  obtain ⟨-, -, -, hresponses⟩ := absorbAll_frame data (initContext s)
  rw [finish_answers, hresponses, initContext_responses]

theorem exec_hash_events {data : List Byte} {s t : State} (h : exec (.hash data) s = .next t) :
    t.events = s.events := by
  obtain ⟨hevents, -⟩ := exec_port h
  exact hevents

/-- Settles O22: INIT, UPDATE and FINAL are a message streamed in one chunk. -/
theorem hashIsInitUpdateFinal : Obligations.HashIsInitUpdateFinal := by
  intro data s
  have hrun := runAll_init_streamed [data] s
  rw [List.flatten_singleton] at hrun
  obtain ⟨-, -, -, hphase, herr, -⟩ := exec_hash_registers (exec_hash data s)
  refine ⟨_, _, _, exec_hash data s, hrun, rfl, ?_, herr, hphase, exec_hash_events (exec_hash data s)⟩
  exact responses_put_back (finish_absorbAll_initContext_responses data s) _

/-- Settles O29: UPDATE is a left fold of ABSORB, over which the giving of an ACK may be postponed. -/
theorem chunkingDoesNotMatter : Obligations.ChunkingDoesNotMatter := by
  refine ⟨fun a b s hactive => ?_, fun chunks s => ?_⟩
  · have hrun := runAll_updates [a, b] [] hactive
    rw [List.flatten_cons, List.flatten_singleton] at hrun
    exact ⟨_, _, hrun, exec_update_of_active (a ++ b) hactive, rfl⟩
  · exact ⟨_, _, _, runAll_init_streamed chunks s, exec_hash _ s, rfl, finish_absorbAll_initContext_responses _ s⟩

theorem absorbed_initContext (msg : List Byte) (s : State) : Absorbed msg (absorbAll msg (initContext s)) :=
  (absorbed_nil_of_fresh (s := initContext s) rfl rfl rfl rfl).absorbAll msg

theorem Absorbed.serialise_finish {msg : List Byte} {s : State} (h : Absorbed msg s) :
    serialise (finish s).hash = sha256 msg :=
  ((digestView_eq_some_iff _ _).mp h.digestView_finish).2

/-- Settles O28: at the end of each run FINAL finds the whole message absorbed. -/
theorem streamedMessageAnswersSha256 : Obligations.StreamedMessageAnswersSha256 := by
  intro s chunks _
  have hinit := (absorbed_initContext chunks.flatten s).serialise_finish
  have hreset : Absorbed chunks.flatten (absorbAll chunks.flatten (resetEngine s)) :=
    (absorbed_nil_of_fresh (s := resetEngine s) rfl rfl rfl rfl).absorbAll _
  refine ⟨⟨_, runAll_init_streamed chunks s, ?_⟩, ⟨_, runAll_streamed chunks (resetEngine_phase s), ?_⟩,
    ⟨_, exec_hash _ s, ?_⟩⟩
  · rw [withResponses_responses, hinit]
  · rw [withResponses_responses, hreset.serialise_finish, resetEngine_responses]
  · rw [finish_absorbAll_initContext_responses, hinit]

end Sys2Proof.Safety
end

section
/-! PROOFS. What a whole message costs and leaves (40_streaming_hasher.md R68 to R70, R74). -/

namespace Sys2Proof.Safety

open Sys2Proof.Machine

theorem finish_absorbAll_initContext_draws (msg : List Byte) (s : State) :
    (finish (absorbAll msg (initContext s))).draws =
      s.draws + (msg.length / 64 + if msg.length % 64 ≤ 55 then 1 else 2) := by
  have hempty : (initContext s).fill.val = 0 := rfl
  have hf : (initContext s).fill.val < 64 := by omega
  have hfill := absorbAll_fill_val msg _ hf
  rw [hempty, Nat.zero_add] at hfill
  rw [finish_draws, padAndCompress_draws (by omega), absorbAll_draws msg hf, hfill, hempty, Nat.zero_add,
    initContext_draws, Nat.add_assoc]

/-- The marker and the length field take 9 bytes: with them the message needs another block from 56 bytes past a
multiple of 64 on. -/
theorem paddedBlockCount (n : Nat) : (n + 8) / 64 + 1 = n / 64 + if n % 64 ≤ 55 then 1 else 2 := by
  split <;> omega

/-- Settles O23: HASH absorbs its payload into the fresh context and pads what is left over. -/
theorem hashLeavesPayloadsDigest : Obligations.HashLeavesPayloadsDigest := by
  intro data s
  obtain ⟨hhash, hfill, hcnt, hphase, herr, hbuf⟩ := exec_hash_registers (exec_hash data s)
  rw [wholeBlocks_padded, ← bitLength_ofNat] at hhash hbuf
  refine ⟨_, exec_hash data s, hhash, hcnt, hfill, hphase, herr, hbuf, ?_, exec_hash_events (exec_hash data s),
    finish_absorbAll_initContext_responses data s⟩
  have hrest : (data.drop (64 * (data.length / 64))).length = data.length % 64 := by
    rw [List.length_drop]
    omega
  rw [finish_absorbAll_initContext_draws, List.length_append, wholeBlocks, takeBlocks_length, List.length_map,
    pad_length, hrest]

/-- Settles O27: the compressions of each command, and of INIT, UPDATEs and FINAL together. -/
theorem compressionsAreCounted : Obligations.CompressionsAreCounted := by
  refine ⟨fun s t h => ?_, fun data s t hactive hf h => ?_, fun s t hactive hf h => ?_, fun i s t hmisuse h => ?_,
    fun chunks s => ⟨_, _, runAll_init_streamed chunks s, ?_, exec_hash _ s, ?_, paddedBlockCount _⟩⟩
  · obtain rfl := Host.Outcome.next.inj ((exec_init s).symm.trans h)
    rfl
  · obtain rfl := Host.Outcome.next.inj ((exec_update_of_active data hactive).symm.trans h)
    exact absorbAll_draws data hf
  · obtain rfl := Host.Outcome.next.inj ((exec_final_of_active hactive).symm.trans h)
    rw [finish_draws, padAndCompress_draws hf]
  · obtain rfl := Host.Outcome.next.inj ((exec_of_misuse hmisuse).symm.trans h)
    rfl
  · rw [withResponses_draws, paddedBlockCount, finish_absorbAll_initContext_draws]
  · rw [paddedBlockCount, finish_absorbAll_initContext_draws]

end Sys2Proof.Safety
end

section
/-! PROOFS. Two states with the same context answer alike (40_streaming_hasher.md R76). -/

namespace Sys2Proof.Safety

open Sys2Proof.Machine

/-- The context does not see the responses given. -/
theorem SameContext.respond {s₁ s₂ : State} (h : SameContext s₁ s₂) (r₁ r₂ : Rsp) :
    SameContext (respond r₁ s₁) (respond r₂ s₂) := by
  obtain ⟨hhash, hfill, hcnt, hphase, hpending⟩ := h
  exact ⟨hhash, hfill, hcnt, hphase, hpending⟩

theorem sameContext_initContext (s₁ s₂ : State) : SameContext (initContext s₁) (initContext s₂) :=
  ⟨rfl, rfl, rfl, rfl, by rw [residualBytes_of_fill_zero _ rfl, residualBytes_of_fill_zero _ rfl]⟩

/-- The bytes taken in since a common hash state decide H, FILL and the residual. -/
theorem sameContext_of_holdsFrom {start : HashState} {bytes : List Byte} {s₁ s₂ : State}
    (h₁ : HoldsFrom start bytes s₁) (h₂ : HoldsFrom start bytes s₂) (hcnt : s₁.cnt = s₂.cnt)
    (hphase : s₁.phase = s₂.phase) : SameContext s₁ s₂ :=
  ⟨h₁.folded.trans h₂.folded.symm, Fin.ext (h₁.cursor.trans h₂.cursor.symm), hcnt, hphase,
    h₁.pending.trans h₂.pending.symm⟩

theorem SameContext.absorbAll {s₁ s₂ : State} (h : SameContext s₁ s₂) (hf : s₁.fill.val < 64) (data : List Byte) :
    SameContext (absorbAll data s₁) (absorbAll data s₂) := by
  obtain ⟨hhash, hfill, hcnt, hphase, hpending⟩ := h
  obtain ⟨hphase₁, -⟩ := absorbAll_frame data s₁
  obtain ⟨hphase₂, -⟩ := absorbAll_frame data s₂
  have h₁ := holdsFrom_residualBytes hf
  have h₂ := holdsFrom_residualBytes (s := s₂) (by rwa [← hfill])
  rw [← hhash, ← hpending] at h₂
  refine sameContext_of_holdsFrom (h₁.absorbAll data) (h₂.absorbAll data) ?_ ?_
  · rw [absorbAll_cnt, absorbAll_cnt, hcnt]
  · rw [hphase₁, hphase₂, hphase]

theorem SameContext.finish {s₁ s₂ : State} (h : SameContext s₁ s₂) (hf : s₁.fill.val < 64) :
    SameContext (finish s₁) (finish s₂) := by
  obtain ⟨hhash, hfill, hcnt, -, hpending⟩ := h
  obtain ⟨hcnt₁, -⟩ := padAndCompress_frame s₁
  obtain ⟨hcnt₂, -⟩ := padAndCompress_frame s₂
  refine ⟨?_, ?_, ?_, ?_, ?_⟩
  · rw [finish_hash, finish_hash, padAndCompress_hash s₁ hf, padAndCompress_hash s₂ (by rwa [← hfill]), hhash, hcnt,
      hpending]
  · rw [finish_fill_zero, finish_fill_zero]
  · rw [finish_cnt, finish_cnt, hcnt₁, hcnt₂, hcnt]
  · rw [finish_phase, finish_phase]
  · rw [residualBytes_of_fill_zero _ (finish_fill_zero s₁), residualBytes_of_fill_zero _ (finish_fill_zero s₂)]

/-- The command `i` gives one and the same response in `s₁` and `s₂`, and leaves the same context. -/
def AnswersAlike (i : Instr) (s₁ s₂ : State) : Prop :=
  ∃ (t₁ t₂ : State) (r : Rsp), exec i s₁ = .next t₁ ∧ exec i s₂ = .next t₂ ∧
    t₁.responses = s₁.responses ++ [r] ∧ t₂.responses = s₂.responses ++ [r] ∧ SameContext t₁ t₂

theorem answersAlike_init (s₁ s₂ : State) : AnswersAlike .init s₁ s₂ :=
  ⟨_, _, .ack, exec_init s₁, exec_init s₂, rfl, rfl, (sameContext_initContext s₁ s₂).respond _ _⟩

theorem answersAlike_hash (data : List Byte) (s₁ s₂ : State) : AnswersAlike (.hash data) s₁ s₂ := by
  have hempty : (initContext s₁).fill.val < 64 := by simp
  have habsorbed := (sameContext_initContext s₁ s₂).absorbAll hempty data
  have hfinished := habsorbed.finish (absorbed_initContext data s₁).inv.fill_lt
  refine ⟨_, _, _, exec_hash data s₁, exec_hash data s₂, finish_absorbAll_initContext_responses data s₁, ?_,
    hfinished⟩
  rw [hfinished.hash, finish_absorbAll_initContext_responses]

theorem SameContext.answersAlike_of_misuse {s₁ s₂ : State} (h : SameContext s₁ s₂) {i : Instr}
    (h₁ : misuse i s₁ = true) (h₂ : misuse i s₂ = true) : AnswersAlike i s₁ s₂ := by
  obtain ⟨hhash, hfill, hcnt, hphase, hpending⟩ := h
  exact ⟨_, _, _, exec_of_misuse h₁, exec_of_misuse h₂, rfl, rfl, hhash, hfill, hcnt, hphase, hpending⟩

theorem SameContext.answersAlike_update {s₁ s₂ : State} (h : SameContext s₁ s₂) (hf : s₁.fill.val < 64)
    (data : List Byte) : AnswersAlike (.update data) s₁ s₂ := by
  have hphase := h.phase
  obtain hactive | hdone := phase_active_or_done s₁
  · rw [hactive] at hphase
    obtain ⟨hresponses₁, -⟩ := absorbAll_ack data s₁
    obtain ⟨hresponses₂, -⟩ := absorbAll_ack data s₂
    exact ⟨_, _, .ack, exec_update_of_active data hactive, exec_update_of_active data hphase.symm, hresponses₁,
      hresponses₂, (h.absorbAll hf data).respond _ _⟩
  · rw [hdone] at hphase
    exact h.answersAlike_of_misuse ((misuse_iff _ _).mpr ⟨hdone, .inl ⟨data, rfl⟩⟩)
      ((misuse_iff _ _).mpr ⟨hphase.symm, .inl ⟨data, rfl⟩⟩)

theorem SameContext.answersAlike_final {s₁ s₂ : State} (h : SameContext s₁ s₂) (hf : s₁.fill.val < 64) :
    AnswersAlike .final s₁ s₂ := by
  have hphase := h.phase
  obtain hactive | hdone := phase_active_or_done s₁
  · rw [hactive] at hphase
    have hfinished := h.finish hf
    refine ⟨_, _, _, exec_final_of_active hactive, exec_final_of_active hphase.symm, finish_answers s₁, ?_, hfinished⟩
    rw [hfinished.hash, finish_answers]
  · rw [hdone] at hphase
    exact h.answersAlike_of_misuse ((misuse_iff _ _).mpr ⟨hdone, .inr rfl⟩)
      ((misuse_iff _ _).mpr ⟨hphase.symm, .inr rfl⟩)

theorem SameContext.answersAlike {s₁ s₂ : State} (h : SameContext s₁ s₂) (hf : s₁.fill.val < 64) (i : Instr) :
    AnswersAlike i s₁ s₂ := by
  cases i with
  | init => exact answersAlike_init s₁ s₂
  | update data => exact h.answersAlike_update hf data
  | final => exact h.answersAlike_final hf
  | hash data => exact answersAlike_hash data s₁ s₂

/-- Item 1 of R31 alone is kept by every command. -/
theorem exec_keeps_fill_lt {i : Instr} {s t : State} (hf : s.fill.val < 64) (h : exec i s = .next t) :
    t.fill.val < 64 := by
  obtain ⟨-, rfl⟩ | ⟨data, -, -, rfl⟩ | ⟨-, -, rfl⟩ | ⟨data, -, rfl⟩ | ⟨-, -, rfl⟩ := exec_cases h
  · exact (inv_initContext s).fill_lt
  · rw [respond_fill, absorbAll_fill_val data s hf]
    exact Nat.mod_lt _ (by decide)
  · exact (inv_finish s).fill_lt
  · exact (inv_finish _).fill_lt
  · exact hf

/-- Settles O30, by induction on the list: each command answers alike and leaves the same context. -/
theorem deadStateNeverMatters : Obligations.DeadStateNeverMatters := by
  intro is
  induction is with
  | nil => exact fun s₁ s₂ _ h => ⟨s₁, s₂, [], rfl, rfl, h, by simp, by simp⟩
  | cons i is ih =>
    intro s₁ s₂ hf h
    obtain ⟨u₁, u₂, r, hexec₁, hexec₂, hanswer₁, hanswer₂, hsame⟩ := h.answersAlike hf i
    obtain ⟨t₁, t₂, rs, hrun₁, hrun₂, hend, hresponses₁, hresponses₂⟩ :=
      ih u₁ u₂ (exec_keeps_fill_lt hf hexec₁) hsame
    refine ⟨t₁, t₂, r :: rs, (runWith_cons_next is hexec₁).trans hrun₁, (runWith_cons_next is hexec₂).trans hrun₂,
      hend, ?_, ?_⟩
    · rw [hresponses₁, hanswer₁, List.append_assoc, List.singleton_append]
    · rw [hresponses₂, hanswer₂, List.append_assoc, List.singleton_append]

/-- Settles O31: INIT leaves the same context whatever it finds, and from there on the runs answer alike. -/
theorem historyNeverMatters : Obligations.HistoryNeverMatters := by
  intro chunks data s₁ s₂
  have hfresh := (sameContext_initContext s₁ s₂).respond .ack .ack
  obtain ⟨t₁, t₂, rs, hrun₁, hrun₂, hend, hresponses₁, hresponses₂⟩ :=
    deadStateNeverMatters (streamed chunks) _ _ (inv_respond .ack (inv_initContext s₁)).fill_lt hfresh
  obtain ⟨u₁, u₂, r, hhash₁, hhash₂, hanswer₁, hanswer₂, hsame⟩ := answersAlike_hash data s₁ s₂
  refine ⟨t₁, t₂, u₁, u₂, .ack :: rs, r, (runWith_cons_next _ (exec_init s₁)).trans hrun₁,
    (runWith_cons_next _ (exec_init s₂)).trans hrun₂, ?_, ?_, hend, hhash₁, hhash₂, hanswer₁, hanswer₂, hsame⟩
  · rw [hresponses₁, respond_responses, initContext_responses, List.append_assoc, List.singleton_append]
  · rw [hresponses₂, respond_responses, initContext_responses, List.append_assoc, List.singleton_append]

end Sys2Proof.Safety
end

section
/-! PROOFS. σ0 and σ1: two rotations and a shift, bit by bit and over xor (41_message_scheduler.md R80, R81). -/

namespace Sys2Proof.Machine

/-- Zeros enter at the top: past bit 31 there is nothing to move down. -/
theorem shr32_getLsbD (x : Word) (n i : Nat) :
    (shr32 x n).getLsbD i = (decide (i + n < 32) && x.getLsbD (i + n)) := by
  rw [shr32, BitVec.getLsbD_ushiftRight, Nat.add_comm n i]
  by_cases htop : i + n < 32
  · simp [htop]
  · simp [htop, BitVec.getLsbD_of_ge x (i + n) (by omega)]

theorem shr32_xor (x y : Word) (n : Nat) : shr32 (x ^^^ y) n = shr32 x n ^^^ shr32 y n :=
  BitVec.ushiftRight_xor_distrib x y n

/-- A rotation only moves bits, and xor works on each bit alone. -/
theorem rotr32_xor (x y : Word) (n : Nat) (hn : n < 32) : rotr32 (x ^^^ y) n = rotr32 x n ^^^ rotr32 y n := by
  refine BitVec.eq_of_getLsbD_eq fun i hi => ?_
  rw [BitVec.getLsbD_xor, rotr32_getLsbD _ n i hn hi, rotr32_getLsbD _ n i hn hi, rotr32_getLsbD _ n i hn hi,
    BitVec.getLsbD_xor]

/-- A bit of σ0 or σ1, for any two rotation amounts `m`, `n` and any shift amount `k`. -/
theorem rotr32_rotr32_shr32_getLsbD (x : Word) {m n k i : Nat} (hm : m < 32) (hn : n < 32) (hi : i < 32) :
    (rotr32 x m ^^^ rotr32 x n ^^^ shr32 x k).getLsbD i =
      ((x.getLsbD ((i + m) % 32) ^^ x.getLsbD ((i + n) % 32)) ^^
        (decide (i + k < 32) && x.getLsbD (i + k))) := by
  rw [BitVec.getLsbD_xor, BitVec.getLsbD_xor, rotr32_getLsbD x m i hm hi, rotr32_getLsbD x n i hn hi,
    shr32_getLsbD]

/-- Each of the three terms of σ0 or σ1 is linear over xor, so their xor is. -/
theorem rotr32_rotr32_shr32_xor (x y : Word) {m n k : Nat} (hm : m < 32) (hn : n < 32) :
    rotr32 (x ^^^ y) m ^^^ rotr32 (x ^^^ y) n ^^^ shr32 (x ^^^ y) k =
      (rotr32 x m ^^^ rotr32 x n ^^^ shr32 x k) ^^^ (rotr32 y m ^^^ rotr32 y n ^^^ shr32 y k) := by
  rw [rotr32_xor x y m hm, rotr32_xor x y n hn, shr32_xor]
  ac_rfl

/-- Settles O10: σ0 and σ1 differ only in their amounts; the printed values are computed. -/
theorem smallSigmasBitByBit : Obligations.SmallSigmasBitByBit := by
  refine ⟨fun x i hi => ⟨?_, ?_⟩, fun x y => ⟨?_, ?_⟩, by decide⟩
  · exact rotr32_rotr32_shr32_getLsbD x (m := 7) (n := 18) (by omega) (by omega) hi
  · exact rotr32_rotr32_shr32_getLsbD x (m := 17) (n := 19) (by omega) (by omega) hi
  · exact rotr32_rotr32_shr32_xor x y (by omega) (by omega)
  · exact rotr32_rotr32_shr32_xor x y (by omega) (by omega)

end Sys2Proof.Machine
end

section
/-! PROOFS. The other 48 words of a schedule obey the recurrence (41_message_scheduler.md R82), and the all-zero
block's schedule is zero. -/

namespace Sys2Proof.Machine

/-- The word that the recurrence writes to W[i + 16], from four of the words before it (R82). -/
def recurrenceWord (w : Schedule) (i : Nat) (hi : i < 48) : Word :=
  sigma1 w[i + 14] + sigma0 w[i + 1] + w[i + 9] + w[i]

theorem expandSchedule_eq (w : Schedule) :
    expandSchedule w = Nat.fold 48 (fun i hi w => w.set (i + 16) (recurrenceWord w i hi)) w := rfl

/-- The four taps lie below the word written, so a write from there on leaves the sum as it was. -/
theorem recurrenceWord_set (w : Schedule) (v : Word) {i n : Nat} (hi : i < 48) (hin : i ≤ n) (hn : n < 48) :
    recurrenceWord (w.set (n + 16) v) i hi = recurrenceWord w i hi := by
  simp only [recurrenceWord]
  rw [Vector.getElem_set_ne _ _ (by omega), Vector.getElem_set_ne _ _ (by omega),
    Vector.getElem_set_ne _ _ (by omega), Vector.getElem_set_ne _ _ (by omega)]

/-- The first `n` of the 48 words that the recurrence writes are in `w`. -/
def ExpandedBelow (n : Nat) (w : Schedule) : Prop :=
  ∀ i (hi : i < 48), i < n → w[i + 16] = recurrenceWord w i hi

theorem ExpandedBelow.set {n : Nat} {w : Schedule} (h : ExpandedBelow n w) (hn : n < 48) :
    ExpandedBelow (n + 1) (w.set (n + 16) (recurrenceWord w n hn)) := by
  intro i hi hin
  rw [recurrenceWord_set w _ hi (by omega) hn, Vector.getElem_set]
  split
  · obtain rfl : i = n := by omega
    rfl
  · exact h i hi (by omega)

theorem expandSchedule_getElem_add (w : Schedule) (i : Nat) (hi : i < 48) :
    (expandSchedule w)[i + 16] = recurrenceWord (expandSchedule w) i hi := by
  have hall : ExpandedBelow 48 (expandSchedule w) :=
    fold_invariant ExpandedBelow 48 _ w (fun _ _ h => absurd h (Nat.not_lt_zero _)) fun _ hn _ h => h.set hn
  exact hall i hi hi

theorem memReadWord_replicate_zero (t : Fin 16) : memReadWord (Vector.replicate 64 0) t = 0 := by
  simp only [memReadWord, Vector.getElem_replicate]
  rfl

theorem recurrenceWord_replicate_zero (i : Nat) (hi : i < 48) :
    recurrenceWord (Vector.replicate 64 0) i hi = 0 := by
  simp only [recurrenceWord, Vector.getElem_replicate]
  decide

theorem loadBlock_replicate_zero :
    loadBlock (Vector.replicate 64 0) (Vector.replicate 64 0) = Vector.replicate 64 0 := by
  refine fold_invariant (fun _ (w : Schedule) => w = Vector.replicate 64 0) 16 _ _ rfl fun t ht w hw => ?_
  rw [hw, memReadWord_replicate_zero, Vector.set_replicate_self]

theorem expandSchedule_replicate_zero :
    expandSchedule (Vector.replicate 64 0) = Vector.replicate 64 0 := by
  rw [expandSchedule_eq]
  refine fold_invariant (fun _ (w : Schedule) => w = Vector.replicate 64 0) 48 _ _ rfl fun i hi w hw => ?_
  rw [hw, recurrenceWord_replicate_zero, Vector.set_replicate_self]

/-- The steps of SCHED write zero over zero (R82). -/
theorem sched_replicate_zero : sched (Vector.replicate 64 0) = Vector.replicate 64 0 := by
  rw [sched, loadBlock_replicate_zero, expandSchedule_replicate_zero]

/-- Settles O13: the words of the load, the words of the recurrence, SCHED in place, and the zero block. -/
theorem scheduleFollowsRecurrence : Obligations.ScheduleFollowsRecurrence :=
  ⟨fun block t => sched_getElem_of_lt block t t.isLt,
    fun _ i => expandSchedule_getElem_add _ i i.isLt, scratch_sched_eq, sched_replicate_zero⟩

end Sys2Proof.Machine
end

section
/-! PROOFS. One round (43_compression_function.md R97), and COMPRESS() in place with its frame (R95, R102). -/

namespace Sys2Proof.Machine

/-- Below 64 a round happens: T1 and T2 are held, the variables move with them, and j moves on. -/
theorem scratch_round_eq {x : Scratch} (hj : x.j.val < 64) : x.round =
    { x with
      t1 := roundT1 K[x.j.val] x.w[x.j.val] x.vars
      t2 := roundT2 x.vars
      vars := roundVars K[x.j.val] x.w[x.j.val] x.vars
      j := ⟨x.j.val + 1, by omega⟩ } := dif_pos hj

/-- Settles O15: SCHED leaves no old word and the in-place rounds are the fold; the other registers are not written. -/
theorem compressInPlaceIsCompress : Obligations.CompressInPlaceIsCompress :=
  fun s => ⟨compressBuffer_hash s, compressBuffer_buf s, compressBuffer_fill s, compressBuffer_cnt s,
    compressBuffer_phase s, compressBuffer_err s, compressBuffer_events s, compressBuffer_responses s⟩

/-- Settles O14: the fields of the storage after a round, read one by one. -/
theorem roundReplacesAllEight : Obligations.RoundReplacesAllEight := by
  intro x hj
  rw [scratch_round_eq hj]
  exact ⟨rfl, rfl, rfl, rfl, rfl⟩

end Sys2Proof.Machine
end

section
/-! PROOFS. Ch and Maj bit by bit, and what follows for whole words (43_compression_function.md R91, R92). -/

namespace Sys2Proof.Machine

/-- The two terms of Ch select from f and from g by opposite values of e's bit. -/
theorem Ch_getLsbD (e f g : Word) {i : Nat} (hi : i < 32) :
    (Ch e f g).getLsbD i = if e.getLsbD i then f.getLsbD i else g.getLsbD i := by
  rw [Ch, BitVec.getLsbD_xor, BitVec.getLsbD_and, BitVec.getLsbD_and, not32_getLsbD e i hi]
  cases e.getLsbD i <;> simp

theorem getLsbD_ffffffff {i : Nat} (hi : i < 32) : (0xffffffff : Word).getLsbD i = true :=
  BitVec.getLsbD_allOnes.trans (decide_eq_true hi)

theorem Ch_zero (f g : Word) : Ch 0 f g = g := by
  refine BitVec.eq_of_getLsbD_eq fun i hi => ?_
  have hzero : (0 : Word).getLsbD i = false := BitVec.getLsbD_zero
  rw [Ch_getLsbD _ f g hi, hzero, if_neg Bool.false_ne_true]

theorem Ch_ones (f g : Word) : Ch 0xffffffff f g = f := by
  refine BitVec.eq_of_getLsbD_eq fun i hi => ?_
  rw [Ch_getLsbD _ f g hi, getLsbD_ffffffff hi, if_pos rfl]

theorem Ch_self (e f : Word) : Ch e f f = f := by
  refine BitVec.eq_of_getLsbD_eq fun i hi => ?_
  rw [Ch_getLsbD e f f hi, ite_self]

/-- No bit is 1 in both terms of Ch, since one has e's bit and the other its inverse. -/
theorem Ch_eq_or (e f g : Word) : Ch e f g = (e &&& f) ||| (not32 e &&& g) := by
  refine BitVec.eq_of_getLsbD_eq fun i hi => ?_
  rw [Ch_getLsbD e f g hi, BitVec.getLsbD_or, BitVec.getLsbD_and, BitVec.getLsbD_and, not32_getLsbD e i hi]
  cases e.getLsbD i <;> simp

/-- The xor of the three pairs is 1 when one pair is, and when all three are; two alone cannot be. -/
theorem Maj_getLsbD (a b c : Word) (i : Nat) : (Maj a b c).getLsbD i =
    decide (2 ≤ (a.getLsbD i).toNat + (b.getLsbD i).toNat + (c.getLsbD i).toNat) := by
  rw [Maj, BitVec.getLsbD_xor, BitVec.getLsbD_xor, BitVec.getLsbD_and, BitVec.getLsbD_and, BitVec.getLsbD_and]
  cases a.getLsbD i <;> cases b.getLsbD i <;> cases c.getLsbD i <;> rfl

theorem Maj_swap_left (a b c : Word) : Maj a b c = Maj b a c := by
  refine BitVec.eq_of_getLsbD_eq fun i _ => ?_
  rw [Maj_getLsbD, Maj_getLsbD, Nat.add_comm (a.getLsbD i).toNat]

theorem Maj_swap_right (a b c : Word) : Maj a b c = Maj a c b := by
  refine BitVec.eq_of_getLsbD_eq fun i _ => ?_
  rw [Maj_getLsbD, Maj_getLsbD, Nat.add_right_comm]

theorem Maj_self (a b : Word) : Maj a a b = a := by
  rw [Maj, BitVec.and_self, BitVec.xor_assoc, BitVec.xor_self, BitVec.xor_zero]

theorem Maj_zero (b c : Word) : Maj 0 b c = b &&& c := by
  simp [Maj]

/-- With one vote for 1 in every bit, one more is enough. -/
theorem Maj_ones (b c : Word) : Maj 0xffffffff b c = b ||| c := by
  refine BitVec.eq_of_getLsbD_eq fun i hi => ?_
  rw [Maj_getLsbD, getLsbD_ffffffff hi, BitVec.getLsbD_or]
  cases b.getLsbD i <;> cases c.getLsbD i <;> rfl

/-- Settles O11: the bits by cases on the selecting or voting bits, the word laws from the bits, the examples
computed. -/
theorem chChoosesAndMajVotes : Obligations.ChChoosesAndMajVotes :=
  ⟨fun e f g _ hi => Ch_getLsbD e f g hi,
    fun e f g => ⟨Ch_eq_or e f g, Ch_zero f g, Ch_ones f g, Ch_self e f⟩,
    fun a b c i _ => Maj_getLsbD a b c i,
    fun a b c => ⟨Maj_swap_left a b c, Maj_swap_right a b c, Maj_self a b, Maj_zero b c, Maj_ones b c⟩,
    by decide⟩

end Sys2Proof.Machine
end

section
/-! PROOFS. Σ0 and Σ1: three rotations, bit by bit (43_compression_function.md R93, R94). -/

namespace Sys2Proof.Machine

/-- A bit of Σ0 or Σ1, for any three rotation amounts. -/
theorem rotr32_rotr32_rotr32_getLsbD (x : Word) {l m n i : Nat} (hl : l < 32) (hm : m < 32) (hn : n < 32)
    (hi : i < 32) : (rotr32 x l ^^^ rotr32 x m ^^^ rotr32 x n).getLsbD i =
      ((x.getLsbD ((i + l) % 32) ^^ x.getLsbD ((i + m) % 32)) ^^ x.getLsbD ((i + n) % 32)) := by
  rw [BitVec.getLsbD_xor, BitVec.getLsbD_xor, rotr32_getLsbD x l i hl hi, rotr32_getLsbD x m i hm hi,
    rotr32_getLsbD x n i hn hi]

/-- Settles O12: Σ0 and Σ1 differ only in their amounts. -/
theorem capitalSigmasBitByBit : Obligations.CapitalSigmasBitByBit := by
  refine fun x i hi => ⟨?_, ?_⟩
  · exact rotr32_rotr32_rotr32_getLsbD x (l := 2) (m := 13) (n := 22) (by omega) (by omega) (by omega) hi
  · exact rotr32_rotr32_rotr32_getLsbD x (l := 6) (m := 11) (n := 25) (by omega) (by omega) (by omega) hi

end Sys2Proof.Machine
end

section
/-! PROOFS. Misuse (60_exceptions.md R104, R105): what it answers, what every other command answers, and what that
makes of a run in the strict reading. -/

namespace Sys2Proof.Machine

/-- The responses of R59: ACK or a digest, unless the command is refused. -/
theorem exec_answers_ack_or_digest {i : Instr} {s t : State} (h : exec i s = .next t) :
    (t.responses = s.responses ++ [.ack] ∨ ∃ d, t.responses = s.responses ++ [.digest d]) ∨
      s.phase = .done ∧ ((∃ data, i = .update data) ∨ i = .final) := by
  obtain ⟨-, rfl⟩ | ⟨data, -, -, rfl⟩ | ⟨-, -, rfl⟩ | ⟨data, -, rfl⟩ | ⟨hi, hdone, -⟩ := exec_cases h
  · exact .inl (.inl rfl)
  · obtain ⟨hresponses, -⟩ := absorbAll_ack data s
    exact .inl (.inl hresponses)
  · exact .inl (.inr ⟨_, finish_answers s⟩)
  · exact .inl (.inr ⟨_, Safety.finish_absorbAll_initContext_responses data s⟩)
  · exact .inr ⟨hdone, hi⟩

end Sys2Proof.Machine

namespace Sys2Proof.Safety

open Sys2Proof.Machine

theorem execStrict_of_misuse {i : Instr} {s : State} (h : misuse i s = true) : execStrict i s = .fault .misuse :=
  if_pos h

theorem execStrict_of_not_misuse {i : Instr} {s : State} (h : misuse i s = false) : execStrict i s = exec i s :=
  if_neg (by simp [h])

theorem exec_response_of_not_misuse {i : Instr} {s t : State} (h : misuse i s = false) (ht : exec i s = .next t) :
    ∃ r, t.responses = s.responses ++ [r] ∧ r ≠ .error .misuseAfterFinal := by
  obtain (hack | ⟨d, hdigest⟩) | hmisuse := exec_answers_ack_or_digest ht
  · exact ⟨.ack, hack, by simp⟩
  · exact ⟨.digest d, hdigest, by simp⟩
  · simp [(misuse_iff i s).mpr hmisuse] at h

theorem exec_err_of_not_misuse {i : Instr} {s t : State} (h : misuse i s = false) (ht : exec i s = .next t)
    (hclear : s.err = false) : t.err = false := by
  obtain ⟨-, herr⟩ | ⟨hi, hkept | ⟨hdone, -⟩⟩ := exec_err ht
  · exact herr
  · exact hkept.trans hclear
  · simp [(misuse_iff i s).mpr ⟨hdone, hi⟩] at h

/-- Settles O24: a refusal does what `raise Misuse` does; every other command answers ACK or a digest. -/
theorem misuseIsRefusedPrecisely : Obligations.MisuseIsRefusedPrecisely := by
  refine ⟨misuse_iff, fun i s hmisuse => ?_, fun i s hnot => ?_⟩
  · obtain ⟨hdone, -⟩ := (misuse_iff i s).mp hmisuse
    exact ⟨exec_of_misuse hmisuse, rfl, (digestView_eq_some_iff _ _).mpr ⟨hdone, rfl⟩, execStrict_of_misuse hmisuse⟩
  · obtain ⟨t, ht⟩ := exec_answers i s
    obtain ⟨r, hresponses, hr⟩ := exec_response_of_not_misuse hnot ht
    exact ⟨execStrict_of_not_misuse hnot, t, r, ht, hresponses, hr⟩

theorem runStrict_cons_of_misuse {i : Instr} {s : State} (is : List Instr) (h : misuse i s = true) :
    runStrict (i :: is) s = .fault .misuse := by
  simp only [runStrict, runWith, execStrict_of_misuse h]

theorem runStrict_cons_of_not_misuse {i : Instr} {s t : State} (is : List Instr) (h : misuse i s = false)
    (ht : exec i s = .next t) : runStrict (i :: is) s = runStrict is t :=
  runWith_cons_next is ((execStrict_of_not_misuse h).trans ht)

/-- Settles O42, by induction on the list: the strict run faults at the first refused command, and that command
answers ERROR; any other moves both runs to the same state. -/
theorem strictRunsAreRunsWithoutError : Obligations.StrictRunsAreRunsWithoutError := by
  intro is
  induction is with
  | nil => exact fun s => ⟨s, [], rfl, by simp, by simp [runStrict], by simp, fun _ hclear => hclear⟩
  | cons i is ih =>
    intro s
    obtain ⟨u, hu⟩ := exec_answers i s
    obtain ⟨t, rs, hrun, hresponses, hstrict, hfault, herr⟩ := ih u
    have hall : runAll (i :: is) s = .next t := (runWith_cons_next is hu).trans hrun
    cases hmisuse : misuse i s with
    | true =>
      obtain rfl := Host.Outcome.next.inj ((exec_of_misuse hmisuse).symm.trans hu)
      refine ⟨t, .error .misuseAfterFinal :: rs, hall, ?_, ?_, fun _ => runStrict_cons_of_misuse is hmisuse, ?_⟩
      · simpa using hresponses
      · simp [runStrict_cons_of_misuse is hmisuse]
      · simp
    | false =>
      obtain ⟨r, hr, hne⟩ := exec_response_of_not_misuse hmisuse hu
      have hmem : Rsp.error .misuseAfterFinal ∈ r :: rs ↔ .error .misuseAfterFinal ∈ rs := by simp [hne.symm]
      rw [hr, List.append_assoc] at hresponses
      refine ⟨t, r :: rs, hall, hresponses, ?_⟩
      rw [runStrict_cons_of_not_misuse is hmisuse hu, hmem]
      exact ⟨hstrict, hfault, fun hno hclear => herr hno (exec_err_of_not_misuse hmisuse hu hclear)⟩

end Sys2Proof.Safety
end

section
/-! PROOFS. Several engines (60_exceptions.md R115, 20_memory.md R48). -/

namespace Sys2Proof.Machine

/-- A step among `n` engines is one engine's own step, put in its place. -/
theorem stepAt_eq_next_iff {n : Nat} (i : Fin n) (es es' : Engines n) :
    stepAt i es = .next es' ↔ ∃ t, step es[i] = .next t ∧ es' = es.set i t := by
  unfold stepAt
  cases step es[i] <;> simp [eq_comm]

theorem engines_set_of_ne {n : Nat} {i j : Fin n} (es : Engines n) (t : State) (h : j ≠ i) :
    (es.set i t)[j] = es[j] :=
  Vector.getElem_set_ne i.isLt j.isLt (Fin.val_ne_of_ne h.symm)

/-- Settles O44: the states written by the two steps stand in different places of the array. -/
theorem enginesAreIndependent : Obligations.EnginesAreIndependent := by
  refine ⟨fun n i es es' hstep => ?_, fun n i j es a b hij ha hb => ?_⟩
  · obtain ⟨t, ht, rfl⟩ := (stepAt_eq_next_iff i es es').mp hstep
    exact ⟨by simpa using ht, fun j hj => engines_set_of_ne es t hj⟩
  · obtain ⟨t, ht, rfl⟩ := (stepAt_eq_next_iff i es a).mp ha
    obtain ⟨u, hu, rfl⟩ := (stepAt_eq_next_iff j es b).mp hb
    simp only [stepAt_eq_next_iff]
    refine ⟨(es.set i t).set j u, ⟨u, ?_, rfl⟩, t, ?_, ?_⟩
    · rw [engines_set_of_ne es t hij.symm, hu]
    · rw [engines_set_of_ne es u hij, ht]
    · exact Vector.set_comm t u (Fin.val_ne_of_ne hij)

end Sys2Proof.Machine
end

section
/-! PROOFS. Every command ends with one response (70_reset_and_hazards.md R128), and reset forgets the engine
(R117). -/

namespace Sys2Proof.Machine

/-- Settles O26: a command always answers a next state, and `exec_port` says what that did at the port. -/
theorem everyCommandEndsWithOneResponse : Obligations.EveryCommandEndsWithOneResponse := by
  intro i s
  obtain ⟨t, ht⟩ := exec_answers i s
  obtain ⟨hevents, r, hresponses⟩ := exec_port ht
  exact ⟨t, r, ht, hresponses, hevents⟩

/-- R117: cutting a command short is the same step as a reset between commands. -/
theorem step_of_reset {s : State} {tx : Transaction} {rest : List HostEvent}
    (h : s.events = .reset :: rest ∨ s.events = .resetDuring tx :: rest) :
    step s = .next (resetEngine { s with events := rest }) := by
  obtain h | h := h <;> simp only [step, takeEvent_of_cons s _ rest h]

/-- Reset keeps only the model's own fields, which are no part of the engine. -/
theorem resetEngine_congr {s₁ s₂ : State} (hevents : s₁.events = s₂.events)
    (hresponses : s₁.responses = s₂.responses) (hdraws : s₁.draws = s₂.draws) : resetEngine s₁ = resetEngine s₂ := by
  rw [resetEngine, resetEngine, hevents, hresponses, hdraws]

end Sys2Proof.Machine

namespace Sys2Proof.Safety

open Sys2Proof.Machine

/-- Reset and INIT leave the same context, whatever either finds. -/
theorem sameContext_resetEngine_initContext (s₁ s₂ : State) : SameContext (resetEngine s₁) (initContext s₂) :=
  ⟨rfl, rfl, rfl, rfl, by rw [residualBytes_of_fill_zero _ rfl, residualBytes_of_fill_zero _ rfl]⟩

/-- Settles O39: both kinds of reset step to `resetEngine`, which reads nothing of what the engine held. -/
theorem resetForgetsTheEngine : Obligations.ResetForgetsTheEngine := by
  refine ⟨fun s tx rest hreset => ?_, fun s₁ s₂ tx rest hbetween hduring hresponses hdraws => ?_⟩
  · exact ⟨_, step_of_reset hreset, rfl, rfl, rfl, rfl, rfl, rfl, rfl, rfl,
      sameContext_resetEngine_initContext _ s⟩
  · rw [step_of_reset (tx := tx) (.inl hbetween), step_of_reset (.inr hduring)]
    exact congrArg _ (resetEngine_congr rfl hresponses hdraws)

end Sys2Proof.Safety
end
